-- ==== Sys2Proof/Word.lean ====
section
/-! DEFINITION. The values of 00_scope.md R10 and the port words of 30_encoding.md R55, 10_state.md R25.

A thing the spec lists by name is an inductive type; a thing that travels on numbered port wires is a bit vector. -/

namespace Sys2Proof

/-- The beat word `in_word[4:0]` = `(F, S[2:0], B)` (30_encoding.md R55). -/
abbrev BeatWord := BitVec 5

/-- A scheme code, as in the field S and on `out_scheme` (30_encoding.md R57). -/
abbrev SchemeCode := BitVec 3

/-- A level code, as on `out_lvl0` and `out_lvl1` (30_encoding.md R59). -/
abbrev LevelCode := BitVec 2

/-- An error code, as on `err_code` (60_exceptions.md R130). -/
abbrev ErrCode := BitVec 2

/-- The closed two-valued input type (00_scope.md R10). -/
inductive Bit where
  | zero
  | one
deriving DecidableEq, Repr

/-- The closed three-valued output type: `low` is -1, `zero` is 0, `high` is +1 (00_scope.md R10). -/
inductive Level where
  | low
  | zero
  | high
deriving DecidableEq, Repr, Inhabited

/-- The carried polarity `last_voltage`: `plus` is +1, `minus` is -1, never 0 (00_scope.md R10, 10_state.md R21). -/
inductive Pol where
  | plus
  | minus
deriving DecidableEq, Repr

/-- The six schemes (00_scope.md R2, R10). -/
inductive Scheme where
  | nrzl
  | nrzi
  | ami
  | pt
  | man
  | dman
deriving DecidableEq, Repr

/-- The four schemes that own a polarity register (10_state.md R21, R22; `Stateful` in 40_beat.md R81). -/
inductive Carrier where
  | nrzi
  | ami
  | pt
  | dman
deriving DecidableEq, Repr

/-- What one beat emits: one level or a level pair `[first half, second half]`. The spec's list `xs` has length
1 or 2 in every case (40_beat.md R85), and the type says so. -/
inductive Emission where
  | single (a : Level)
  | pair (first second : Level)
deriving DecidableEq, Repr

end Sys2Proof
end

