-- ==== Sys2Proof/Config.lean ====
section
/-! DEFINITION. What the spec leaves open: the parameters of 00_scope.md R9 and the free values of 70_reset_and_hazards.md R151. -/

namespace Sys2Proof

/-- The OPEN parameter `HOST_ERROR_ORDER` (00_scope.md R9, 60_exceptions.md R138): which of two host errors is
reported first. A claim must hold for either value. -/
inductive HostErrorOrder where
  | invalidSymbolFirst
  | unknownSchemeFirst
deriving DecidableEq, Repr

/-- The two OPEN parameters of 00_scope.md R9; the model takes them as arguments. -/
structure PlatformParams where
  nInstances : Nat
  hostErrorOrder : HostErrorOrder
deriving DecidableEq, Repr

/-- A free one-bit value: what a one-bit storage element holds when power comes up (70_reset_and_hazards.md R151).
The first argument says whose draw it is (`State.source`), the second which (`State.draws`); nothing constrains it or
relates the draws of two sources (log entries 3 and 17). -/
opaque Config.drawBit : Nat → Nat → Bool

/-- A free two-bit value: what a two-bit port holds when power comes up (70_reset_and_hazards.md R151; arguments as for
`Config.drawBit`; log entries 3 and 17). -/
opaque Config.drawCode2 : Nat → Nat → BitVec 2

/-- A free three-bit value: what a three-bit port holds when power comes up (70_reset_and_hazards.md R151; arguments as
for `Config.drawBit`; log entries 3 and 17). -/
opaque Config.drawCode3 : Nat → Nat → BitVec 3

/-- A free level: what a consumer takes level code 10 for before the first reset, where it is "any value" and no fault
(93_implementation_defined.md X3; arguments as for `Config.drawBit`; log entry 16). -/
opaque Config.drawLevel : Nat → Nat → Level

end Sys2Proof
end

