-- ==== Sys2Proof/Syntax.lean ====
section
/-! DEFINITION. The instructions: one constructor per row of spec/opcode_table.json. `first` is the field F,
`bit` the field B (30_encoding.md R63). -/

namespace Sys2Proof

/-- The six beats (30_encoding.md R66). -/
inductive Instr where
  /-- NRZL, `F000B` (41_nrz.md R100). -/
  | nrzl (first : Bool) (bit : Bit)
  /-- NRZI, `F001B` (41_nrz.md R101). -/
  | nrzi (first : Bool) (bit : Bit)
  /-- AMI, `F010B` (42_bipolar.md R110). -/
  | ami (first : Bool) (bit : Bit)
  /-- PT, `F011B` (42_bipolar.md R112). -/
  | pt (first : Bool) (bit : Bit)
  /-- MAN, `F100B` (43_manchester.md R120). -/
  | man (first : Bool) (bit : Bit)
  /-- DMAN, `F101B` (43_manchester.md R123). -/
  | dman (first : Bool) (bit : Bit)
deriving DecidableEq, Repr

/-- What decoding a beat word gives: `Beat(...)` or `Reject(UnknownScheme, code)` (30_encoding.md R60). -/
inductive DecodedBeat where
  | beat (i : Instr)
  | rejectUnknownScheme (code : SchemeCode)
deriving DecidableEq, Repr

end Sys2Proof
end

