-- ==== Sys2Proof/WellFormed.lean ====
section
/-! DEFINITION. What is well formed: an instruction, a beat word, the beats of one run, the platform's parameters. -/

namespace Sys2Proof

/-- Every instruction is well formed: "No field value within a legal scheme code is reserved: F and B take both
values in every scheme" (30_encoding.md R61). The types Bool and Bit already hold nothing else. -/
def Instr.wellFormed : Instr → Bool
  | .nrzl _ _ => true
  | .nrzi _ _ => true
  | .ami _ _ => true
  | .pt _ _ => true
  | .man _ _ => true
  | .dman _ _ => true

/-- A beat word is well formed when its scheme code is assigned: `in_word & 0x0E` is neither 0x0C nor 0x0E
(30_encoding.md R66). -/
def BeatWord.wellFormed (w : BeatWord) : Bool :=
  w &&& 0x0E#5 != 0x0C#5 && w &&& 0x0E#5 != 0x0E#5

/-- The marks of one run: its first beat has F = 1 and every later beat F = 0 (40_beat.md R88;
70_reset_and_hazards.md R160). No beats at all is the empty run. -/
def wellMarked : List (Bool × Bit) → Bool
  | [] => true
  | (f, _) :: rest => f && rest.all (fun x => !x.1)

/-- `N_INSTANCES` ≥ 1 (00_scope.md R9). -/
def PlatformParams.wellFormed (p : PlatformParams) : Bool :=
  decide (1 ≤ p.nInstances)

end Sys2Proof
end

