-- ==== Sys2Proof/Decode.lean ====
section
/-! DEFINITION. Decoding of beat words, total over all 32 (30_encoding.md R60), the encoder written from the same
tables (R55, R57, R58), and the opcode table (R66). -/

namespace Sys2Proof

/-- The field F, `in_word[4]` (30_encoding.md R55). -/
def wordFirst (w : BeatWord) : Bool := w.getLsbD 4

/-- The field S, `in_word[3:1]` (30_encoding.md R55). -/
def wordScheme (w : BeatWord) : SchemeCode := w.extractLsb' 1 3

/-- The field B, `in_word[0]`, read as a bit (30_encoding.md R55, R58). -/
def wordBit (w : BeatWord) : Bit := if w.getLsbD 0 then .one else .zero

/-- `decode` of 30_encoding.md R60: total over the 32 words. -/
def decode (w : BeatWord) : DecodedBeat :=
  match (wordScheme w).toNat with
  | 0 => .beat (.nrzl (wordFirst w) (wordBit w))
  | 1 => .beat (.nrzi (wordFirst w) (wordBit w))
  | 2 => .beat (.ami (wordFirst w) (wordBit w))
  | 3 => .beat (.pt (wordFirst w) (wordBit w))
  | 4 => .beat (.man (wordFirst w) (wordBit w))
  | 5 => .beat (.dman (wordFirst w) (wordBit w))
  | _ => .rejectUnknownScheme (wordScheme w)

/-- The scheme code table (30_encoding.md R57). -/
def schemeCode : Scheme → SchemeCode
  | .nrzl => 0b000#3
  | .nrzi => 0b001#3
  | .ami => 0b010#3
  | .pt => 0b011#3
  | .man => 0b100#3
  | .dman => 0b101#3

/-- The wire value of a bit (30_encoding.md R58). -/
def bitWire : Bit → BitVec 1
  | .zero => 0#1
  | .one => 1#1

/-- `(F, S, B)`, most significant field first (30_encoding.md R55). -/
def packWord (first : Bool) (code : SchemeCode) (bit : Bit) : BeatWord :=
  BitVec.ofBool first ++ code ++ bitWire bit

/-- The scheme an instruction selects (30_encoding.md R56). -/
def Instr.scheme : Instr → Scheme
  | .nrzl _ _ => .nrzl
  | .nrzi _ _ => .nrzi
  | .ami _ _ => .ami
  | .pt _ _ => .pt
  | .man _ _ => .man
  | .dman _ _ => .dman

/-- The first flag F of an instruction (40_beat.md R82). -/
def Instr.first : Instr → Bool
  | .nrzl f _ => f
  | .nrzi f _ => f
  | .ami f _ => f
  | .pt f _ => f
  | .man f _ => f
  | .dman f _ => f

/-- The input bit B of an instruction (30_encoding.md R63). -/
def Instr.bit : Instr → Bit
  | .nrzl _ b => b
  | .nrzi _ b => b
  | .ami _ b => b
  | .pt _ b => b
  | .man _ b => b
  | .dman _ b => b

/-- The beat of a scheme with its first flag and bit (30_encoding.md R64). -/
def beatOf (sc : Scheme) (first : Bool) (bit : Bit) : Instr :=
  match sc with
  | .nrzl => .nrzl first bit
  | .nrzi => .nrzi first bit
  | .ami => .ami first bit
  | .pt => .pt first bit
  | .man => .man first bit
  | .dman => .dman first bit

/-- The word of an instruction (30_encoding.md R64: "The word is (F, S, B)"). -/
def encode (i : Instr) : BeatWord :=
  packWord i.first (schemeCode i.scheme) i.bit

/-- One row of the opcode table (30_encoding.md R66). -/
structure OpcodeRow where
  scheme : Scheme
  pattern : BeatWord
  mask : BeatWord
deriving DecidableEq, Repr

/-- The opcode table (30_encoding.md R66). -/
def opcodeTable : List OpcodeRow :=
  [⟨.nrzl, 0x00#5, 0x0E#5⟩, ⟨.nrzi, 0x02#5, 0x0E#5⟩, ⟨.ami, 0x04#5, 0x0E#5⟩,
   ⟨.pt, 0x06#5, 0x0E#5⟩, ⟨.man, 0x08#5, 0x0E#5⟩, ⟨.dman, 0x0A#5, 0x0E#5⟩]

/-- "A word matches a row when `(in_word & mask) == match`" (30_encoding.md R66). -/
def OpcodeRow.matchesWord (r : OpcodeRow) (w : BeatWord) : Bool :=
  w &&& r.mask == r.pattern

/-- The instruction the decoder reads from an opcode-table word of `nbits` bits. The port has five wires, so bits
from 5 up have no wire and are dropped (log entry 6). -/
def decodeTableWord (nbits w : Nat) : Option Instr :=
  match decode (BitVec.ofNat 5 (w % 2 ^ nbits)) with
  | .beat i => some i
  | .rejectUnknownScheme _ => none

end Sys2Proof
end

