-- ==== Sys2Proof/Machine/State.lean ====
section
/-! DEFINITION. The state of one instance (10_state.md R20, R21, R25, R33), the outside world's next events, the
reasons to stop, and the state after reset (10_state.md R32). -/

namespace Sys2Proof
namespace Machine

/-- The four polarity registers, one per stateful scheme (10_state.md R21). -/
structure Polarities where
  nrzi : Pol
  ami : Pol
  pt : Pol
  dman : Pol
deriving DecidableEq, Repr

/-- The registered output ports (10_state.md R25). They are port wires, so every bit pattern of each width can stand
here; which patterns are legal after reset is `OutStage.legal` in Safety.lean. -/
structure OutStage where
  outValid : Bool
  outScheme : SchemeCode
  outPair : Bool
  outLvl0 : LevelCode
  outLvl1 : LevelCode
  errValid : Bool
  errCode : ErrCode
deriving DecidableEq, Repr

/-- The input ports as sampled at one rising edge (30_encoding.md R55, 70_reset_and_hazards.md R157). -/
structure Inputs where
  rst : Bool
  inValid : Bool
  inWord : BeatWord
deriving DecidableEq, Repr

/-- What the outside world does next: drive the input ports at one rising edge, or remove and return power
(60_exceptions.md R140, R147). -/
inductive HostEvent where
  | edge (p : Inputs)
  | powerLoss
deriving DecidableEq, Repr

/-- One instance. `pol` and `out` are the spec's storage (10_state.md R20, R33). The others are the model's own: `host`
is what the outside world still does, oldest first (log entry 1); `source` and `draws` say whose free values power-up
takes and how many it has taken (log entries 3 and 17); `wasReset` says whether a reset edge has come since power came
up (log entry 15). No rule of the block reads these four. -/
structure State where
  pol : Polarities
  out : OutStage
  host : List HostEvent
  source : Nat
  draws : Nat
  wasReset : Bool
deriving DecidableEq, Repr

/-- Why a reading of the output ports stops. The block itself never raises one: `step` answers a next state from
every state. -/
inductive Fault where
  /-- A consumer sampled level code 10 after the first reset, when the hardware never drives it (30_encoding.md R59;
  93_implementation_defined.md X3). Raised by `readLevelCode`. Safe: it only stops a reading. -/
  | levelCodeNeverDriven
  /-- A consumer sampled `err_code` 10 or 11 after the first reset, when the hardware never drives them
  (60_exceptions.md R130; 93_implementation_defined.md X4). Raised by `sampleStage`. Safe: it only stops a reading. -/
  | errCodeNeverDriven
deriving DecidableEq, Repr

/-- Why the model gives no meaning. No beat is refused: a word with a reserved scheme code is rejected by the block
itself, in a next state (60_exceptions.md R131). -/
inductive Refusal where
  /-- An instruction of the opcode table without a meaning, named by its mnemonic. Raised by no arm of `exec`.
  Safe: it claims nothing. -/
  | notModelled (mnemonic : String)
  /-- A step of an instance the platform does not have (20_memory.md R54). Raised by `stepInstance` only. Safe: no
  hardware is there to differ. -/
  | noSuchInstance
deriving DecidableEq, Repr

/-- Every output port at 0 (`zeroStage` of 70_reset_and_hazards.md R155). -/
def OutStage.zero : OutStage :=
  { outValid := false
    outScheme := 0b000#3
    outPair := false
    outLvl0 := 0b00#2
    outLvl1 := 0b00#2
    errValid := false
    errCode := 0b00#2 }

/-- Every polarity register at +1 (`polAll(+1)` of 70_reset_and_hazards.md R155). -/
def Polarities.allPlus : Polarities :=
  { nrzi := .plus, ami := .plus, pt := .plus, dman := .plus }

/-- The machine right after reset (10_state.md R32), with nothing presented by the outside world (log entry 1). The
model's own counters start at 0 (log entries 3 and 17). -/
def State.reset : State :=
  { pol := .allPlus, out := .zero, host := [], source := 0, draws := 0, wasReset := true }

end Machine
end Sys2Proof
end

