-- ==== Sys2Proof/Machine/Operands.lean ====
section
/-! DEFINITION. The operand forms of a beat (30_encoding.md R63), polarity negation (00_scope.md R11, 40_beat.md
R96), and the codes of levels and polarities (30_encoding.md R59, 10_state.md R21). -/

namespace Sys2Proof
namespace Machine

/-- `neg(p)`, the other polarity (00_scope.md R11). -/
def negPol : Pol → Pol
  | .plus => .minus
  | .minus => .plus

/-- A polarity as a level: `Pol` is the subset -1, +1 of `Level` (00_scope.md R10). -/
def levelOf : Pol → Level
  | .plus => .high
  | .minus => .low

/-- The bit a polarity register holds: 0 is +1 and 1 is -1 (10_state.md R21). -/
def polWire : Pol → BitVec 1
  | .plus => 0#1
  | .minus => 1#1

/-- The polarity a register bit stands for (10_state.md R21). -/
def polOfBit (b : Bool) : Pol := if b then .minus else .plus

/-- `lcode`, the port code of a level (40_beat.md R83, 30_encoding.md R59). -/
def levelCode : Level → LevelCode
  | .high => 0b01#2
  | .zero => 0b00#2
  | .low => 0b11#2

/-- `int(l)`, the integer of a level (00_scope.md R11). -/
def levelInt : Level → Int
  | .high => 1
  | .zero => 0
  | .low => -1

/-- The operand F: the polarity a stateful beat takes in is +1 if F = 1 and the register's value otherwise
(40_beat.md R82). -/
def incoming (first : Bool) (held : Pol) : Pol := if first then .plus else held

/-- The scheme that owns a polarity register (10_state.md R21). -/
def carrierScheme : Carrier → Scheme
  | .nrzi => .nrzi
  | .ami => .ami
  | .pt => .pt
  | .dman => .dman

/-- The polarity register of a scheme, if it has one (10_state.md R21, R22; 30_encoding.md R57). -/
def carrierOf : Scheme → Option Carrier
  | .nrzl => none
  | .nrzi => some .nrzi
  | .ami => some .ami
  | .pt => some .pt
  | .man => none
  | .dman => some .dman

/-- `pol[s]` in a bank of registers (00_scope.md R11). -/
def Polarities.get (ps : Polarities) : Carrier → Pol
  | .nrzi => ps.nrzi
  | .ami => ps.ami
  | .pt => ps.pt
  | .dman => ps.dman

/-- `pol[s] <- p` in a bank of registers (00_scope.md R11). -/
def Polarities.set (ps : Polarities) (c : Carrier) (p : Pol) : Polarities :=
  match c with
  | .nrzi => { ps with nrzi := p }
  | .ami => { ps with ami := p }
  | .pt => { ps with pt := p }
  | .dman => { ps with dman := p }

/-- The levels of an emission, in emission order (00_scope.md R12, 20_memory.md R42). -/
def emissionLevels : Emission → List Level
  | .single a => [a]
  | .pair a b => [a, b]

end Machine
end Sys2Proof
end

