-- ==== Sys2Proof/Machine/Flags.lean ====
section
/-! DEFINITION. The status a beat leaves on the output ports. The hardware has no flags and no condition codes
(10_state.md R28); `out_valid`, `out_pair`, `err_valid` and `err_code` are its only status, and these are all the
loads of the output stage the spec gives (40_beat.md R83, R84; 70_reset_and_hazards.md R155 for `zeroStage`). -/

namespace Sys2Proof
namespace Machine

/-- `out_pair`: whether two levels were emitted (40_beat.md R83). -/
def pairFlag : Emission → Bool
  | .single _ => false
  | .pair _ _ => true

/-- The code on `out_lvl0` (40_beat.md R83). -/
def lvl0Code : Emission → LevelCode
  | .single a => levelCode a
  | .pair a _ => levelCode a

/-- The code on `out_lvl1`, 00 when one level was emitted (40_beat.md R83). -/
def lvl1Code : Emission → LevelCode
  | .single _ => 0b00#2
  | .pair _ b => levelCode b

/-- The stage loaded by an `Emitted(s, xs)` outcome (40_beat.md R83). -/
def stageEmitted (sc : Scheme) (xs : Emission) : OutStage :=
  { outValid := true
    outScheme := schemeCode sc
    outPair := pairFlag xs
    outLvl0 := lvl0Code xs
    outLvl1 := lvl1Code xs
    errValid := false
    errCode := 0b00#2 }

/-- The error code of `UnknownScheme` (60_exceptions.md R130). -/
def unknownSchemeCode : ErrCode := 0b01#2

/-- The error code of the host's `InvalidSymbol`, never driven by the block (60_exceptions.md R130). -/
def invalidSymbolCode : ErrCode := 0b10#2

/-- The stage loaded by a `Rejected(UnknownScheme, c)` outcome; `c` goes to no port (40_beat.md R84). -/
def stageRejected : OutStage :=
  { outValid := false
    outScheme := 0b000#3
    outPair := false
    outLvl0 := 0b00#2
    outLvl1 := 0b00#2
    errValid := true
    errCode := unknownSchemeCode }

end Machine
end Sys2Proof
end

