-- ==== Sys2Proof/Machine/Ops.lean ====
section
/-! DEFINITION. The named operations on the state: reading and writing a polarity register, loading the output stage,
finishing a beat, rejecting a word, the reset edge, the idle edge, and loss of power. -/

namespace Sys2Proof
namespace Machine

/-- `pol[s]` (00_scope.md R11). -/
def readPol (c : Carrier) (s : State) : Pol := s.pol.get c

/-- `pol[s] <- p` (00_scope.md R11). -/
def writePol (c : Carrier) (p : Pol) (s : State) : State := { s with pol := s.pol.set c p }

/-- Loads every port of the output stage (10_state.md R25, R26). -/
def loadStage (o : OutStage) (s : State) : State := { s with out := o }

/-- Finishes a beat of a scheme without state: only the output stage is loaded (40_beat.md R81, R83). -/
def finishStateless (sc : Scheme) (xs : Emission) (s : State) : State :=
  loadStage (stageEmitted sc xs) s

/-- Finishes a beat of a stateful scheme: its register takes the outgoing polarity and the output stage is loaded, at
the same edge (40_beat.md R81, R83; 20_memory.md R46). -/
def finishCarried (c : Carrier) (r : Pol × Emission) (s : State) : State :=
  loadStage (stageEmitted (carrierScheme c) r.2) (writePol c r.1 s)

/-- The one exception: a word whose scheme code is reserved. No register is read or written, the error ports are
loaded, the code is stored nowhere, and the block goes on (60_exceptions.md R131, 40_beat.md R84). -/
def rejectBeat (_code : SchemeCode) (s : State) : State :=
  loadStage stageRejected s

/-- The edge with `rst` = 1 (70_reset_and_hazards.md R150). It is also where the model notes that reset has been applied
(log entry 15). -/
def resetEdge (s : State) : State :=
  loadStage .zero { s with pol := .allPlus, wasReset := true }

/-- The edge with `rst` = 0 and `in_valid` = 0: registers kept, ports cleared (10_state.md R26, 40_beat.md R80). -/
def idleEdge (s : State) : State :=
  loadStage .zero s

/-- Power removed and returned: "nothing is retained" (60_exceptions.md R147), so each of the eleven storage elements
takes a free value of its own, from the instance's own source (70_reset_and_hazards.md R151; log entries 3 and 17), and
reset is yet to be applied (log entry 15). -/
def powerCycle (s : State) : State :=
  { s with
    pol :=
      { nrzi := polOfBit (Config.drawBit s.source s.draws)
        ami := polOfBit (Config.drawBit s.source (s.draws + 1))
        pt := polOfBit (Config.drawBit s.source (s.draws + 2))
        dman := polOfBit (Config.drawBit s.source (s.draws + 3)) }
    out :=
      { outValid := Config.drawBit s.source (s.draws + 4)
        outScheme := Config.drawCode3 s.source (s.draws + 5)
        outPair := Config.drawBit s.source (s.draws + 6)
        outLvl0 := Config.drawCode2 s.source (s.draws + 7)
        outLvl1 := Config.drawCode2 s.source (s.draws + 8)
        errValid := Config.drawBit s.source (s.draws + 9)
        errCode := Config.drawCode2 s.source (s.draws + 10) }
    draws := s.draws + 11
    wasReset := false }

/-- The machine at power-up, before any reset (70_reset_and_hazards.md R151). -/
def powerUp : State := powerCycle State.reset

end Machine
end Sys2Proof
end

