-- ==== Sys2Proof/Machine/Bipolar.lean ====
section
/-! DEFINITION. The bipolar family: AMI and Pseudoternary (42_bipolar.md). -/

namespace Sys2Proof
namespace Machine

/-- `rule_AMI`: on 1 emit the polarity, then toggle; on 0 emit 0 (42_bipolar.md R110). -/
def ruleAmi (p : Pol) : Bit → Pol × Emission
  | .one => (negPol p, .single (levelOf p))
  | .zero => (p, .single .zero)

/-- `rule_PT`: on 0 emit the polarity, then toggle; on 1 emit 0 (42_bipolar.md R112). -/
def rulePt (p : Pol) : Bit → Pol × Emission
  | .zero => (negPol p, .single (levelOf p))
  | .one => (p, .single .zero)

/-- AMI (42_bipolar.md R110). -/
def execAmi (first : Bool) (bit : Bit) (s : State) : Host.Outcome State Fault Refusal :=
  .next (finishCarried .ami (ruleAmi (incoming first (readPol .ami s)) bit) s)

/-- PT (42_bipolar.md R112). -/
def execPt (first : Bool) (bit : Bit) (s : State) : Host.Outcome State Fault Refusal :=
  .next (finishCarried .pt (rulePt (incoming first (readPol .pt s)) bit) s)

end Machine
end Sys2Proof
end

