-- ==== Sys2Proof/Machine/Manchester.lean ====
section
/-! DEFINITION. The Manchester family: Manchester and Differential Manchester (43_manchester.md). -/

namespace Sys2Proof
namespace Machine

/-- `rule_MAN` (43_manchester.md R120). -/
def ruleMan : Bit → Emission
  | .one => .pair .high .low
  | .zero => .pair .low .high

/-- `rule_DMAN`: the polarity toggles on every bit; a 0-bit has two equal halves at the new level, a 1-bit goes from
the held level to the new one (43_manchester.md R123, 90_conflicts.md C1). -/
def ruleDman (p : Pol) : Bit → Pol × Emission
  | .zero => (negPol p, .pair (levelOf (negPol p)) (levelOf (negPol p)))
  | .one => (negPol p, .pair (levelOf p) (levelOf (negPol p)))

/-- MAN; F is accepted and ignored (43_manchester.md R120). -/
def execMan (_first : Bool) (bit : Bit) (s : State) : Host.Outcome State Fault Refusal :=
  .next (finishStateless .man (ruleMan bit) s)

/-- DMAN (43_manchester.md R123). -/
def execDman (first : Bool) (bit : Bit) (s : State) : Host.Outcome State Fault Refusal :=
  .next (finishCarried .dman (ruleDman (incoming first (readPol .dman s)) bit) s)

end Machine
end Sys2Proof
end

