-- ==== Sys2Proof/Machine/Nrz.lean ====
section
/-! DEFINITION. The NRZ family: NRZ-L and NRZ-I (41_nrz.md). -/

namespace Sys2Proof
namespace Machine

/-- `rule_NRZL` (41_nrz.md R100). -/
def ruleNrzl : Bit → Emission
  | .one => .single .high
  | .zero => .single .low

/-- `rule_NRZI`: on 1 toggle and emit the new polarity, on 0 emit it unchanged (41_nrz.md R101). -/
def ruleNrzi (p : Pol) : Bit → Pol × Emission
  | .one => (negPol p, .single (levelOf (negPol p)))
  | .zero => (p, .single (levelOf p))

/-- NRZL; F is accepted and ignored (41_nrz.md R100). -/
def execNrzl (_first : Bool) (bit : Bit) (s : State) : Host.Outcome State Fault Refusal :=
  .next (finishStateless .nrzl (ruleNrzl bit) s)

/-- NRZI (41_nrz.md R101). -/
def execNrzi (first : Bool) (bit : Bit) (s : State) : Host.Outcome State Fault Refusal :=
  .next (finishCarried .nrzi (ruleNrzi (incoming first (readPol .nrzi s)) bit) s)

end Machine
end Sys2Proof
end

