-- ==== Sys2Proof/Machine/Dispatch.lean ====
section
/-! DEFINITION. The dispatch: one arm per constructor of Instr (30_encoding.md R56: "a single exhaustive match"). -/

namespace Sys2Proof
namespace Machine

def exec (i : Instr) (s : State) : Host.Outcome State Fault Refusal :=
  match i with
  | .nrzl first bit => Sys2Proof.Machine.execNrzl first bit s
  | .nrzi first bit => Sys2Proof.Machine.execNrzi first bit s
  | .ami first bit => Sys2Proof.Machine.execAmi first bit s
  | .pt first bit => Sys2Proof.Machine.execPt first bit s
  | .man first bit => Sys2Proof.Machine.execMan first bit s
  | .dman first bit => Sys2Proof.Machine.execDman first bit s

end Machine
end Sys2Proof
end

