-- ==== Sys2Proof/Machine/Edge.lean ====
section
/-! DEFINITION. One rising edge (70_reset_and_hazards.md R155), and the taking of the outside world's next event. -/

namespace Sys2Proof
namespace Machine

/-- A beat word sampled at an edge with `rst` = 0 and `in_valid` = 1: decoded, then run or rejected
(40_beat.md R80, R81). -/
def acceptWord (w : BeatWord) (s : State) : Host.Outcome State Fault Refusal :=
  match decode w with
  | .beat i => exec i s
  | .rejectUnknownScheme code => .next (rejectBeat code s)

/-- `edge` of 70_reset_and_hazards.md R155: reset before a beat, idle without one. -/
def clockEdge (p : Inputs) (s : State) : Host.Outcome State Fault Refusal :=
  if p.rst then .next (resetEdge s)
  else if p.inValid then acceptWord p.inWord s
  else .next (idleEdge s)

/-- The ports at an edge at which the host presents nothing: `IDLE` of 30_encoding.md R65. The rule leaves `in_word` open,
and it is ignored there; 00000 is the model's choice (log entry 18). -/
def idleInputs : Inputs := { rst := false, inValid := false, inWord := 0b00000#5 }

/-- The ports at an edge with `rst` = 1: `RESET` of 30_encoding.md R65. The rule leaves `in_valid` and `in_word` open, and
they are ignored there; 0 and 00000 are the model's choice (log entry 18). -/
def resetInputs : Inputs := { rst := true, inValid := false, inWord := 0b00000#5 }

/-- The ports at an edge that presents a beat word (30_encoding.md R55). -/
def beatInputs (w : BeatWord) : Inputs := { rst := false, inValid := true, inWord := w }

/-- Takes the next event of the outside world. A host with nothing more to present leaves the block idle
(70_reset_and_hazards.md R152; log entry 1). -/
def takeEvent (s : State) : Host.Outcome State Fault Refusal :=
  match s.host with
  | [] => clockEdge idleInputs s
  | .edge p :: rest => clockEdge p { s with host := rest }
  | .powerLoss :: rest => .next (powerCycle { s with host := rest })

/-- The host presents the beat word `w` at the next edge, before everything else it does (log entry 2). -/
def presentNext (w : BeatWord) (s : State) : State :=
  { s with host := .edge (beatInputs w) :: s.host }

end Machine
end Sys2Proof
end

