-- ==== Sys2Proof/Machine/Step.lean ====
section
/-! DEFINITION. One step: one rising edge of `clk`, or one loss of power (70_reset_and_hazards.md R155, R156). -/

namespace Sys2Proof
namespace Machine

/-- One step of the machine. -/
def step (s : State) : Host.Outcome State Fault Refusal := Sys2Proof.Machine.takeEvent s

/-- `s` with the instruction word `w` presented at the next edge, so that the next step runs it. The hardware fetches
nothing (10_state.md R27); the host's stream stands where a fetch would (log entry 2). -/
def State.withFetchWord (s : State) (nbits w : Nat) : State :=
  presentNext (BitVec.ofNat 5 (w % 2 ^ nbits)) s

end Machine
end Sys2Proof
end

