-- ==== Sys2Proof/Machine/Beat.lean ====
section
/-! DEFINITION. The beat-level model (00_scope.md R8): the beat step of 40_beat.md R81 over the polarity registers
alone, and the cycle-level next-state function of 70_reset_and_hazards.md R155 written over it. The machine's step
must agree with it. -/

namespace Sys2Proof
namespace Machine

/-- What a beat comes to (40_beat.md R81). The reserved code is bookkeeping: no port reports it (R84). -/
inductive BeatOutcome where
  | emitted (sc : Scheme) (xs : Emission)
  | rejected (code : SchemeCode)
deriving DecidableEq, Repr

/-- `rule'_s(p, b)`: the scheme's rule, with the polarity passed through for a scheme without state
(40_beat.md R87). -/
def schemeRule (sc : Scheme) (p : Pol) (b : Bit) : Pol × Emission :=
  match sc with
  | .nrzl => (p, ruleNrzl b)
  | .nrzi => ruleNrzi p b
  | .ami => ruleAmi p b
  | .pt => rulePt p b
  | .man => (p, ruleMan b)
  | .dman => ruleDman p b

/-- `beatStep` (40_beat.md R81). -/
def beatStep (st : Polarities) (w : BeatWord) : Polarities × BeatOutcome :=
  match decode w with
  | .rejectUnknownScheme code => (st, .rejected code)
  | .beat i =>
    match carrierOf i.scheme with
    | some c =>
      let r := schemeRule i.scheme (incoming i.first (st.get c)) i.bit
      (st.set c r.1, .emitted i.scheme r.2)
    | none => (st, .emitted i.scheme (schemeRule i.scheme .plus i.bit).2)

/-- The output stage an outcome loads (40_beat.md R83, R84). -/
def outcomeStage : BeatOutcome → OutStage
  | .emitted sc xs => stageEmitted sc xs
  | .rejected _ => stageRejected

/-- `edge(st, rst, in_valid, in_word)` (70_reset_and_hazards.md R155). -/
def beatLevelEdge (st : Polarities) (p : Inputs) : Polarities × OutStage :=
  if p.rst then (.allPlus, .zero)
  else if p.inValid then ((beatStep st p.inWord).1, outcomeStage (beatStep st p.inWord).2)
  else (st, .zero)

/-- The generic carried-polarity fold step the document recommends: a predicate that says which bits are marks, and
an action for marks and one for other bits (40_beat.md R93). -/
def genericRule (isMark : Bit → Bool) (onMark onOther : Pol → Pol × Emission) (p : Pol) (b : Bit) : Pol × Emission :=
  if isMark b then onMark p else onOther p

end Machine
end Sys2Proof
end

