-- ==== Sys2Proof/Machine/Reference.lean ====
section
/-! DEFINITION. Runs and the reference function a run must equal (40_beat.md R86 to R92), with the vocabulary of the
run properties (41_nrz.md R102 to R104, 42_bipolar.md R111 to R115, 43_manchester.md R121 to R125). -/

namespace Sys2Proof
namespace Machine

/-- `k(s)`, the output levels per input bit (40_beat.md R86). -/
def levelsPerBit : Scheme → Nat
  | .nrzl => 1
  | .nrzi => 1
  | .ami => 1
  | .pt => 1
  | .man => 2
  | .dman => 2

/-- `go` of the reference function: the levels emitted from an incoming polarity (40_beat.md R87). -/
def refGo (sc : Scheme) (p : Pol) : List Bit → List Level
  | [] => []
  | b :: rest => emissionLevels (schemeRule sc p b).2 ++ refGo sc (schemeRule sc p b).1 rest

/-- `encode(s, bs)` (40_beat.md R87). -/
def refEncode (sc : Scheme) (bs : List Bit) : List Level := refGo sc .plus bs

/-- The polarity `go` carries after the bits `bs` (40_beat.md R87). -/
def refFinal (sc : Scheme) (p : Pol) : List Bit → Pol
  | [] => p
  | b :: rest => refFinal sc (schemeRule sc p b).1 rest

/-- The levels of beats as the beat step marks them: each beat with F = 1 takes in +1 (40_beat.md R81, R82). On a
well-marked run this is `refEncode`; on anything else it says what the block still does
(93_implementation_defined.md X13). -/
def markedLevels (sc : Scheme) (p : Pol) : List (Bool × Bit) → List Level
  | [] => []
  | (f, b) :: rest =>
    emissionLevels (schemeRule sc (incoming f p) b).2 ++ markedLevels sc (schemeRule sc (incoming f p) b).1 rest

/-- The polarity left by beats as the beat step marks them (40_beat.md R81, R82). -/
def markedFinal (sc : Scheme) (p : Pol) : List (Bool × Bit) → Pol
  | [] => p
  | (f, b) :: rest => markedFinal sc (schemeRule sc (incoming f p) b).1 rest

/-- The beats of the run on `bs`: F = 1 on bit 0 and F = 0 on the others (40_beat.md R88). -/
def markRun : List Bit → List (Bool × Bit)
  | [] => []
  | b :: rest => (true, b) :: rest.map (fun x => (false, x))

/-- `flip` of the mirror law (42_bipolar.md R114). -/
def flipBit : Bit → Bit
  | .zero => .one
  | .one => .zero

/-- `(-1)^n` as a polarity. -/
def signPol (n : Nat) : Pol := if n % 2 = 0 then .plus else .minus

/-- `(-1)^n` as a level. -/
def signLevel (n : Nat) : Level := levelOf (signPol n)

/-- The nonzero levels of a list, in order (42_bipolar.md R111, R113, R115). -/
def nonzeroLevels (xs : List Level) : List Level := xs.filter (fun l => l != .zero)

/-- The first and second half of bit `i` of a Manchester-family run (43_manchester.md, head of the file). -/
def halvesOf (xs : List Level) (i : Nat) : Option Level × Option Level := (xs[2 * i]?, xs[2 * i + 1]?)

/-- "a mid-bit transition of bit `i` means its two halves differ" (43_manchester.md, head of the file). -/
def midTransition (xs : List Level) (i : Nat) : Bool := (halvesOf xs i).1 != (halvesOf xs i).2

/-- The level a bit's start is compared with: the second half of the bit before, or the initial polarity +1 for bit 0
(43_manchester.md, head of the file). -/
def levelBefore (xs : List Level) : Nat → Option Level
  | 0 => some .high
  | i + 1 => (halvesOf xs i).2

/-- The start transition of bit `i` (43_manchester.md, head of the file). -/
def startTransition (xs : List Level) (i : Nat) : Bool := levelBefore xs i != (halvesOf xs i).1

end Machine
end Sys2Proof
end

