-- ==== Sys2Proof/Machine/HostSide.lean ====
section
/-! DEFINITION. The host's side of the boundary: parsing, scheme selection, its two errors and their order, and the
beats it presents (60_exceptions.md R130, R132 to R135, R138, R140; 30_encoding.md R65). -/

namespace Sys2Proof
namespace Machine

/-- The host's errors (60_exceptions.md R130). An empty input is not one (R135). -/
inductive HostError where
  | unknownScheme
  | invalidSymbol
deriving DecidableEq, Repr

/-- The number a host reports for an error (60_exceptions.md R130). -/
def hostErrorCode : HostError → ErrCode
  | .unknownScheme => unknownSchemeCode
  | .invalidSymbol => invalidSymbolCode

/-- The document's stable identifier of a scheme (60_exceptions.md R133). -/
def identifierOf : Scheme → List Char
  | .nrzl => ['N', 'R', 'Z', '-', 'L']
  | .nrzi => ['N', 'R', 'Z', '-', 'I']
  | .ami => ['B', 'i', 'p', 'o', 'l', 'a', 'r', ' ', 'A', 'M', 'I']
  | .pt => ['P', 's', 'e', 'u', 'd', 'o', 't', 'e', 'r', 'n', 'a', 'r', 'y']
  | .man => ['M', 'a', 'n', 'c', 'h', 'e', 's', 't', 'e', 'r']
  | .dman =>
    ['D', 'i', 'f', 'f', 'e', 'r', 'e', 'n', 't', 'i', 'a', 'l', ' ', 'M', 'a', 'n', 'c', 'h', 'e', 's', 't', 'e', 'r']

/-- The six schemes in the order of their codes (30_encoding.md R57). -/
def allSchemes : List Scheme := [.nrzl, .nrzi, .ami, .pt, .man, .dman]

/-- The host's selection: exact matching, letter for letter (60_exceptions.md R132, R133). -/
def selectScheme (name : List Char) : Except HostError Scheme :=
  match allSchemes.find? (fun sc => identifierOf sc == name) with
  | some sc => .ok sc
  | none => .error .unknownScheme

/-- The bit of a character, if it is one (60_exceptions.md R134). -/
def bitOfChar (c : Char) : Option Bit :=
  if c = '0' then some .zero else if c = '1' then some .one else none

/-- The character of a bit. -/
def charOfBit : Bit → Char
  | .zero => '0'
  | .one => '1'

/-- The host's parser: all characters are bits, or the whole parse fails (60_exceptions.md R134, R135). -/
def parseBits : List Char → Except HostError (List Bit)
  | [] => .ok []
  | c :: cs =>
    match bitOfChar c, parseBits cs with
    | some b, .ok bs => .ok (b :: bs)
    | _, _ => .error .invalidSymbol

/-- The beat instructions of the run of `sc` on `bs` (`ENCODE` of 30_encoding.md R65). -/
def runInstrs (sc : Scheme) (bs : List Bit) : List Instr :=
  (markRun bs).map (fun x => beatOf sc x.1 x.2)

/-- The edges that present a run: one cycle a beat, nothing for the empty run (30_encoding.md R65, 40_beat.md R88). -/
def runEvents (sc : Scheme) (bs : List Bit) : List HostEvent :=
  (runInstrs sc bs).map (fun i => .edge (beatInputs (encode i)))

/-- What a caller asks of the host: a scheme by its identifier, and the bits as text. -/
structure HostRequest where
  identifier : List Char
  text : List Char
deriving DecidableEq, Repr

/-- What the host does with a request: it validates both parts before the first beat and presents either the whole run
or nothing. When both errors apply, `HOST_ERROR_ORDER` says which is reported (60_exceptions.md R132, R134, R138). -/
def hostRequest (order : HostErrorOrder) (q : HostRequest) : Except HostError (List HostEvent) :=
  match selectScheme q.identifier, parseBits q.text with
  | .ok sc, .ok bs => .ok (runEvents sc bs)
  | .ok _, .error e => .error e
  | .error e, .ok _ => .error e
  | .error e, .error e' =>
    match order with
    | .unknownSchemeFirst => .error e
    | .invalidSymbolFirst => .error e'

/-- A host that serves a request on a running block: its edges are presented after what the host already does; a
rejected request changes nothing (60_exceptions.md R132, R134, R140). -/
def serveRequest (order : HostErrorOrder) (q : HostRequest) (s : State) : State :=
  match hostRequest order q with
  | .ok evs => { s with host := s.host ++ evs }
  | .error _ => s

end Machine
end Sys2Proof
end

