-- ==== Sys2Proof/Machine/Asm.lean ====
section
/-! DEFINITION. The spec's assembly text (30_encoding.md R64, R65), as lists of characters, and what each line presents
on the input ports. -/

namespace Sys2Proof
namespace Machine

/-- One line of assembly (30_encoding.md R64, R65). -/
inductive AsmLine where
  | beat (sc : Scheme) (first : Bool) (bit : Bit)
  | raw (w : BeatWord)
  | encode (sc : Scheme) (bs : List Bit)
  | idle
  | reset
deriving DecidableEq, Repr

/-- What a line presents, one event a cycle (30_encoding.md R64, R65); the port values that `IDLE` and `RESET` leave open
are log entry 18's. -/
def assembleLine : AsmLine → List HostEvent
  | .beat sc first bit => [.edge (beatInputs (packWord first (schemeCode sc) bit))]
  | .raw w => [.edge (beatInputs w)]
  | .encode sc bs => runEvents sc bs
  | .idle => [.edge idleInputs]
  | .reset => [.edge resetInputs]

/-- What a program presents: its lines in order. -/
def assemble (ls : List AsmLine) : List HostEvent := ls.flatMap assembleLine

/-- The mnemonic of a scheme (30_encoding.md R64). -/
def mnemonicOf : Scheme → List Char
  | .nrzl => ['N', 'R', 'Z', 'L']
  | .nrzi => ['N', 'R', 'Z', 'I']
  | .ami => ['A', 'M', 'I']
  | .pt => ['P', 'T']
  | .man => ['M', 'A', 'N']
  | .dman => ['D', 'M', 'A', 'N']

/-- The text `.F` that sets the first flag (30_encoding.md R64). -/
def firstSuffix : List Char := ['.', 'F']

/-- The text before the five bits of a raw word (30_encoding.md R64). -/
def rawPrefix : List Char := ['.', 'b', 'e', 'a', 't', ' ', '0', 'b']

/-- The text before the mnemonic of an `ENCODE` line (30_encoding.md R65). -/
def encodePrefix : List Char := ['E', 'N', 'C', 'O', 'D', 'E', ' ']

/-- The double quote of an `ENCODE` line. -/
def quoteChar : Char := Char.ofNat 34

/-- The text of `IDLE` (30_encoding.md R65). -/
def idleText : List Char := ['I', 'D', 'L', 'E']

/-- The text of `RESET` (30_encoding.md R65). -/
def resetText : List Char := ['R', 'E', 'S', 'E', 'T']

/-- The bit of a word's wire as a character. -/
def charOfWire (b : Bool) : Char := if b then '1' else '0'

/-- A line as text (30_encoding.md R64, R65). -/
def renderLine : AsmLine → List Char
  | .beat sc first bit => mnemonicOf sc ++ (if first then firstSuffix else []) ++ [' ', charOfBit bit]
  | .raw w =>
    rawPrefix ++
      [charOfWire (w.getLsbD 4), charOfWire (w.getLsbD 3), charOfWire (w.getLsbD 2), charOfWire (w.getLsbD 1),
       charOfWire (w.getLsbD 0)]
  | .encode sc bs => encodePrefix ++ mnemonicOf sc ++ [',', ' ', quoteChar] ++ bs.map charOfBit ++ [quoteChar]
  | .idle => idleText
  | .reset => resetText

/-- What follows a prefix in a text, if the text begins with it. -/
def afterPrefix : List Char → List Char → Option (List Char)
  | [], cs => some cs
  | _ :: _, [] => none
  | p :: ps, c :: cs => if p = c then afterPrefix ps cs else none

/-- The scheme whose mnemonic a text begins with, and the rest of the text. No mnemonic begins another. -/
def takeMnemonic (cs : List Char) : Option (Scheme × List Char) :=
  allSchemes.findSome? (fun sc => (afterPrefix (mnemonicOf sc) cs).map (fun rest => (sc, rest)))

/-- The text of the first flag and of the bit, after a mnemonic (30_encoding.md R64). -/
def parseOperands : List Char → Option (Bool × Bit)
  | [' ', c] => (bitOfChar c).map (fun b => (false, b))
  | ['.', 'F', ' ', c] => (bitOfChar c).map (fun b => (true, b))
  | _ => none

/-- The five bits of a raw word (30_encoding.md R64). -/
def parseRaw (cs : List Char) : Option BeatWord :=
  match parseBits cs with
  | .ok [a, b, c, d, e] => some (bitWire a ++ bitWire b ++ bitWire c ++ bitWire d ++ bitWire e)
  | _ => none

/-- The bits before the closing quote of an `ENCODE` line, which ends the line (30_encoding.md R65). -/
def parseQuoted (cs : List Char) : Option (List Bit) :=
  if cs.getLast? = some quoteChar then
    match parseBits cs.dropLast with
    | .ok bs => some bs
    | .error _ => none
  else none

/-- A line of text read as assembly; exactly the spellings of 30_encoding.md R64 and R65 (log entry 11). -/
def parseLine (cs : List Char) : Option AsmLine :=
  if cs = idleText then some .idle
  else if cs = resetText then some .reset
  else
    match afterPrefix rawPrefix cs with
    | some rest => (parseRaw rest).map .raw
    | none =>
      match afterPrefix encodePrefix cs with
      | some rest =>
        match takeMnemonic rest with
        | some (sc, rest') =>
          match afterPrefix [',', ' ', quoteChar] rest' with
          | some quoted => (parseQuoted quoted).map (.encode sc)
          | none => none
        | none => none
      | none =>
        match takeMnemonic cs with
        | some (sc, rest) => (parseOperands rest).map (fun x => .beat sc x.1 x.2)
        | none => none

end Machine
end Sys2Proof
end

