-- ==== Sys2Proof/Machine/Observe.lean ====
section
/-! DEFINITION. Many steps, the consumer that samples the output stage after each (40_beat.md R94, R95;
70_reset_and_hazards.md R159, R162), and the events of a window of edges. -/

namespace Sys2Proof
namespace Machine

/-- The level a port code stands for, `sext_2(code)`. The code 10 is a fault of the reading after the first reset; before
it, it is "any value", read as the level `free` (30_encoding.md R59, 93_implementation_defined.md X3; log entry 16). -/
def readLevelCode (wasReset : Bool) (free : Level) (c : LevelCode) : Except Fault Level :=
  if c = 0b01#2 then .ok .high
  else if c = 0b00#2 then .ok .zero
  else if c = 0b11#2 then .ok .low
  else if wasReset then .error .levelCodeNeverDriven
  else .ok free

/-- What a consumer takes from the output stage in one cycle: the scheme code and levels of a beat, and the error
reported. -/
structure Reading where
  levels : Option (SchemeCode × List Level)
  error : Option ErrCode
deriving DecidableEq, Repr

/-- The level on `out_lvl0`; the free level it may need is this cycle's own (log entry 16). -/
def readLvl0 (s : State) : Except Fault Level :=
  readLevelCode s.wasReset (Config.drawLevel s.source s.draws) s.out.outLvl0

/-- The level on `out_lvl1`, with a free level apart from `out_lvl0`'s (log entry 16). -/
def readLvl1 (s : State) : Except Fault Level :=
  readLevelCode s.wasReset (Config.drawLevel s.source (s.draws + 1)) s.out.outLvl1

/-- The levels on the stage: `out_lvl0`, then `out_lvl1` only if `out_pair` = 1 (40_beat.md R94, 20_memory.md R42). -/
def readLevels (s : State) : Except Fault (List Level) :=
  match readLvl0 s with
  | .error f => .error f
  | .ok a =>
    if s.out.outPair then
      match readLvl1 s with
      | .error f => .error f
      | .ok b => .ok [a, b]
    else .ok [a]

/-- One sampling of the whole stage: the level ports are read only when `out_valid` = 1 (70_reset_and_hazards.md R162).
After the first reset `err_code` 10 or 11 is a fault of the reading; before it, every pattern may stand there
(93_implementation_defined.md X1, X4; log entry 7). -/
def sampleStage (s : State) : Except Fault Reading :=
  if s.wasReset = true ∧ (s.out.errCode = 0b10#2 ∨ s.out.errCode = 0b11#2) then .error .errCodeNeverDriven
  else
    let err := if s.out.errValid then some s.out.errCode else none
    if s.out.outValid then
      match readLevels s with
      | .error f => .error f
      | .ok xs => .ok { levels := some (s.out.outScheme, xs), error := err }
    else .ok { levels := none, error := err }

/-- The levels one cycle adds to the LevelSequence of a run of `sc` (40_beat.md R94). -/
def levelsFor (sc : Scheme) (s : State) : Except Fault (List Level) :=
  match sampleStage s with
  | .error f => .error f
  | .ok r =>
    match r.levels with
    | some (code, xs) => if code = schemeCode sc then .ok xs else .ok []
    | none => .ok []

/-- The LevelSequence of scheme `sc` read off the stages of successive cycles (40_beat.md R94). -/
def collectLevels (sc : Scheme) : List State → Except Fault (List Level)
  | [] => .ok []
  | t :: ts =>
    match levelsFor sc t, collectLevels sc ts with
    | .ok xs, .ok ys => .ok (xs ++ ys)
    | .error f, _ => .error f
    | .ok _, .error f => .error f

/-- The renderer's "original bit count": the beats of `sc` among successive cycles (40_beat.md R94). -/
def countBeats (sc : Scheme) (ts : List State) : Nat :=
  ts.countP (fun t => t.out.outValid && t.out.outScheme == schemeCode sc)

/-- `n` steps, stopping at the first fault or refusal. -/
def runSteps : Nat → State → Host.Outcome State Fault Refusal
  | 0, s => .next s
  | n + 1, s =>
    match step s with
    | .next t => runSteps n t
    | .fault f => .fault f
    | .refused r => .refused r

/-- The state in the cycle after each of `n` steps, whose output stage a consumer samples
(70_reset_and_hazards.md R158). -/
def runCycles : Nat → State → List State
  | 0, _ => []
  | n + 1, s =>
    match step s with
    | .next t => t :: runCycles n t
    | .fault _ => []
    | .refused _ => []

/-- The beat of scheme `sc` an event is: its F and B, if a beat of `sc` is accepted (40_beat.md R80). -/
def acceptedBeat (sc : Scheme) : HostEvent → Option (Bool × Bit)
  | .powerLoss => none
  | .edge p =>
    if p.rst = false ∧ p.inValid = true then
      match decode p.inWord with
      | .beat i => if i.scheme = sc then some (i.first, i.bit) else none
      | .rejectUnknownScheme _ => none
    else none

/-- The beats of scheme `sc` accepted in a window, in acceptance order (40_beat.md R88). -/
def acceptedBeats (sc : Scheme) (evs : List HostEvent) : List (Bool × Bit) := evs.filterMap (acceptedBeat sc)

/-- Whether an event leaves the registers of schemes it does not name alone: no reset and no loss of power. -/
def calmEvent : HostEvent → Bool
  | .powerLoss => false
  | .edge p => !p.rst

/-- The next `n` events are there, and none is a reset or a loss of power. -/
abbrev CalmWindow (s : State) (n : Nat) : Prop :=
  n ≤ s.host.length ∧ (s.host.take n).all calmEvent = true

/-- The next `n` events hold the run of `sc` on `bs` and no other beat of `sc`; beats of other schemes, rejected words
and idle edges stand between in any way (40_beat.md R88). -/
abbrev RunWindow (sc : Scheme) (bs : List Bit) (s : State) (n : Nat) : Prop :=
  CalmWindow s n ∧ acceptedBeats sc (s.host.take n) = markRun bs

/-- The next `n` events hold beats of `sc` on `bs` that all have F = 0, and no other beat of `sc`
(40_beat.md R92). -/
abbrev UnmarkedWindow (sc : Scheme) (bs : List Bit) (s : State) (n : Nat) : Prop :=
  CalmWindow s n ∧ acceptedBeats sc (s.host.take n) = bs.map (fun b => (false, b))

/-- The edge at which a run is over, from the edges that accepted its beats: the one after the last; a run of no beats
is over at once, at no edge (40_beat.md R95). -/
def runOverEdge (acceptedAt : List Nat) : Option Nat := acceptedAt.getLast?.map (fun k => k + 1)

end Machine
end Sys2Proof
end

