-- ==== Sys2Proof/Machine/Platform.lean ====
section
/-! DEFINITION. A platform of `N_INSTANCES` instances that share nothing (20_memory.md R54, 60_exceptions.md R145). -/

namespace Sys2Proof
namespace Machine

/-- The instances, each with its own registers, output stage and input stream. -/
structure Platform where
  instances : List State
deriving DecidableEq, Repr

/-- Instance `k` of a platform right after its reset (10_state.md R32). Its free values come from a source of its own, so
nothing relates them to another instance's; the number is no part of the hardware, whose instances "have no identifiers"
(60_exceptions.md R145; log entry 17). -/
def instanceReset (k : Nat) : State := { State.reset with source := k }

/-- A platform with every instance right after its reset (10_state.md R32). -/
def platformReset (params : PlatformParams) : Platform :=
  { instances := (List.range params.nInstances).map instanceReset }

/-- A platform at power-up, no instance reset yet: every storage element of every instance is a draw of its own, and how
the values of two instances relate is left open (70_reset_and_hazards.md R151, 20_memory.md R54; log entry 17). -/
def platformPowerUp (params : PlatformParams) : Platform :=
  { instances := (List.range params.nInstances).map (fun k => powerCycle (instanceReset k)) }

/-- One step of instance `k`; the others stand still (20_memory.md R54). -/
def stepInstance (k : Nat) (m : Platform) : Host.Outcome Platform Fault Refusal :=
  match m.instances[k]? with
  | none => .refused .noSuchInstance
  | some s =>
    match step s with
    | .next t => .next { instances := m.instances.set k t }
    | .fault f => .fault f
    | .refused r => .refused r

/-- Steps of instances in the order of a schedule: "Runs on different instances may overlap in time in any way"
(20_memory.md R54). -/
def runSchedule : List Nat → Platform → Host.Outcome Platform Fault Refusal
  | [], m => .next m
  | k :: ks, m =>
    match stepInstance k m with
    | .next m' => runSchedule ks m'
    | .fault f => .fault f
    | .refused r => .refused r

end Machine
end Sys2Proof
end

