-- ==== Sys2Proof/Safety.lean ====
section
/-! DEFINITION. What counts as a safe run: the legal values of the output stage (10_state.md R25), the invariant a
step keeps, and the launch premise of 70_reset_and_hazards.md R154. -/

namespace Sys2Proof
namespace Machine

/-- The legal values of every output port, column by column of 10_state.md R25, and that `out_valid` and `err_valid`
are never both 1. -/
def OutStage.legal (o : OutStage) : Bool :=
  (if o.outValid then decide (o.outScheme.toNat ≤ 5) else o.outScheme == 0b000#3)
    && (o.outValid || !o.outPair)
    && (if o.outValid then o.outLvl0 != 0b10#2 else o.outLvl0 == 0b00#2)
    && (if o.outPair then o.outLvl1 == 0b01#2 || o.outLvl1 == 0b11#2 else o.outLvl1 == 0b00#2)
    && (if o.errValid then o.errCode == 0b01#2 else o.errCode == 0b00#2)
    && !(o.outValid && o.errValid)

/-- Whether an event is an edge, not a loss of power. -/
def poweredEvent : HostEvent → Bool
  | .powerLoss => false
  | .edge _ => true

/-- The invariant of a block that has been reset and stays under power: every port legal (10_state.md R25), and no loss
of power to come, after which "the state is unspecified until the next reset" (60_exceptions.md R147). -/
abbrev State.Inv (s : State) : Prop :=
  s.out.legal = true ∧ s.host.all poweredEvent = true

/-- Whether an event is an edge with `rst` = 1. -/
def isResetEdge : HostEvent → Bool
  | .powerLoss => false
  | .edge p => p.rst

/-- The launch premise "reset has been applied": the first event is a reset edge (70_reset_and_hazards.md R151,
R154). -/
abbrev LaunchedWithReset (s : State) : Prop := s.host.head?.any isResetEdge = true

/-- Once reset has been applied, every port is legal; before, any pattern may stand there (10_state.md R25;
70_reset_and_hazards.md R151; 93_implementation_defined.md X1, X3, X4). -/
abbrev LegalOnceReset (s : State) : Prop := s.wasReset = true → s.out.legal = true

/-- A run of `n` steps that ends in a next state, none of whose stages a consumer faults on. -/
def SafeRun (n : Nat) (s : State) : Prop :=
  (∃ t, runSteps n s = .next t) ∧ ∀ sc, ∃ xs, collectLevels sc (runCycles n s) = .ok xs

end Machine
end Sys2Proof
end

