-- ==== Sys2Proof/Certificates/Slice0/Obligations.lean ====
section
/-! DEFINITION. The statements for the provers. Ports of the output stage are written in the order of 10_state.md R25:
`⟨out_valid, out_scheme, out_pair, out_lvl0, out_lvl1, err_valid, err_code⟩`. -/

open Sys2Proof
open Sys2Proof.Machine

/-! ### Encoding -/

/-- Decoding the word of any instruction gives it back, and a word that decodes to an instruction is that instruction's
word: no bit is dropped in either direction (30_encoding.md R55, R60, R64). -/
def Obligations.DecodeAndEncodeAgree : Prop :=
  (∀ i : Instr, decode (encode i) = .beat i) ∧ ∀ (w : BeatWord) (i : Instr), decode w = .beat i → encode i = w

/-- Decoding is total over the 32 words, field by field; 24 words decode to a beat and 8 to `Reject`, which reports the
code only (30_encoding.md R60). -/
def Obligations.DecodeIsTotalOverThirtyTwoWords : Prop :=
  (∀ w : BeatWord,
    decode w =
      (let first := w.getLsbD 4
       let bit := if w.getLsbD 0 then Bit.one else Bit.zero
       if w.extractLsb' 1 3 = 0b000#3 then .beat (.nrzl first bit)
       else if w.extractLsb' 1 3 = 0b001#3 then .beat (.nrzi first bit)
       else if w.extractLsb' 1 3 = 0b010#3 then .beat (.ami first bit)
       else if w.extractLsb' 1 3 = 0b011#3 then .beat (.pt first bit)
       else if w.extractLsb' 1 3 = 0b100#3 then .beat (.man first bit)
       else if w.extractLsb' 1 3 = 0b101#3 then .beat (.dman first bit)
       else if w.extractLsb' 1 3 = 0b110#3 then .rejectUnknownScheme 0b110#3
       else .rejectUnknownScheme 0b111#3)) ∧
  ((List.range 32).map (BitVec.ofNat 5)).countP
      (fun w => match decode w with | .beat _ => true | .rejectUnknownScheme _ => false) = 24 ∧
  ((List.range 32).map (BitVec.ofNat 5)).countP
      (fun w => match decode w with | .beat _ => false | .rejectUnknownScheme _ => true) = 8

/-- The opcode table: its six rows, what matching a row means, and the words that match none (30_encoding.md R66). -/
def Obligations.OpcodeTableDecidesTheScheme : Prop :=
  opcodeTable =
    [⟨.nrzl, 0x00#5, 0x0E#5⟩, ⟨.nrzi, 0x02#5, 0x0E#5⟩, ⟨.ami, 0x04#5, 0x0E#5⟩,
     ⟨.pt, 0x06#5, 0x0E#5⟩, ⟨.man, 0x08#5, 0x0E#5⟩, ⟨.dman, 0x0A#5, 0x0E#5⟩] ∧
  (∀ r ∈ opcodeTable, ∀ w : BeatWord,
    ((w &&& r.mask = r.pattern ↔ r.matchesWord w = true) ∧
     (w &&& r.mask = r.pattern ↔
      decode w = .beat (beatOf r.scheme (w.getLsbD 4) (if w.getLsbD 0 then .one else .zero))))) ∧
  (∀ w : BeatWord,
    ((w &&& 0x0E#5 = 0x0C#5 ∨ w &&& 0x0E#5 = 0x0E#5) ↔ decode w = .rejectUnknownScheme (w.extractLsb' 1 3)) ∧
    ((w &&& 0x0E#5 = 0x0C#5 ∨ w &&& 0x0E#5 = 0x0E#5) ↔ ∀ r ∈ opcodeTable, r.matchesWord w = false))

/-- Words written out from the spec's encodings, at least one a family (30_encoding.md R64 and the family files'
examples). -/
def Obligations.WordsOfTheSpecDecode : Prop :=
  decode 0b10101#5 = .beat (.ami true .one) ∧ decode 0b01010#5 = .beat (.dman false .zero) ∧
    decode 0b00001#5 = .beat (.nrzl false .one) ∧ decode 0b00011#5 = .beat (.nrzi false .one) ∧
    decode 0b00110#5 = .beat (.pt false .zero) ∧ decode 0b01000#5 = .beat (.man false .zero) ∧
    decode 0b01101#5 = .rejectUnknownScheme 0b110#3

/-- The level codes: a level's integer is `sext_2` of its code, the code reads back as the level, every code but 10 is
some level's, and reading 10 is a fault after the first reset and any level before it (30_encoding.md R59;
93_implementation_defined.md X3; the free level is log entry 16). -/
def Obligations.LevelCodesAreTwosComplement : Prop :=
  levelCode .high = 0b01#2 ∧ levelCode .zero = 0b00#2 ∧ levelCode .low = 0b11#2 ∧
    (∀ l, (levelCode l).toInt = levelInt l) ∧
    (∀ free c l, readLevelCode true free c = .ok l ↔ levelCode l = c) ∧
    (∀ r free l, readLevelCode r free (levelCode l) = .ok l) ∧
    ∀ free, readLevelCode true free 0b10#2 = .error .levelCodeNeverDriven ∧ readLevelCode false free 0b10#2 = .ok free

/-- Every line of assembly reads back from its text, an `ENCODE` line presents one cycle a bit, and the two example
words of the rule (30_encoding.md R64, R65). -/
def Obligations.AssemblyTextRoundTrips : Prop :=
  (∀ l : AsmLine, parseLine (renderLine l) = some l) ∧
    (∀ sc bs, (assembleLine (.encode sc bs)).length = bs.length) ∧
    assembleLine (.beat .ami true .one) = [.edge (beatInputs 0x15#5)] ∧
    assembleLine (.beat .dman false .zero) = [.edge (beatInputs 0x0A#5)]

/-! ### The six beats -/

/-- NRZL: the level is +1 for a 1 and -1 for a 0, whatever F and the state; nothing else changes (41_nrz.md R100). -/
def Obligations.NrzlEmitsTheBitLevel : Prop :=
  (∀ (f : Bool) (s : State),
    exec (.nrzl f .one) s = .next { s with out := ⟨true, 0b000#3, false, 0b01#2, 0b00#2, false, 0b00#2⟩ } ∧
    exec (.nrzl f .zero) s = .next { s with out := ⟨true, 0b000#3, false, 0b11#2, 0b00#2, false, 0b00#2⟩ }) ∧
  (∀ w : BeatWord, w &&& 0x0E#5 = 0x00#5 →
    decode w = .beat (.nrzl (w.getLsbD 4) (if w.getLsbD 0 then .one else .zero))) ∧
  decode 0x01#5 = .beat (.nrzl false .one)

/-- NRZI: a 1-bit toggles `pol[NRZI]` and emits the new polarity, a 0-bit emits it unchanged; with F = 1 the incoming
polarity is +1; nothing else changes (41_nrz.md R101). -/
def Obligations.NrziTogglesOnOneAndEmits : Prop :=
  (∀ (f : Bool) (s : State), (f = true ∨ s.pol.nrzi = .plus) →
    exec (.nrzi f .one) s = .next { s with
      pol := { s.pol with nrzi := .minus }
      out := ⟨true, 0b001#3, false, 0b11#2, 0b00#2, false, 0b00#2⟩ } ∧
    exec (.nrzi f .zero) s = .next { s with
      pol := { s.pol with nrzi := .plus }
      out := ⟨true, 0b001#3, false, 0b01#2, 0b00#2, false, 0b00#2⟩ }) ∧
  (∀ s : State, s.pol.nrzi = .minus →
    exec (.nrzi false .one) s = .next { s with
      pol := { s.pol with nrzi := .plus }
      out := ⟨true, 0b001#3, false, 0b01#2, 0b00#2, false, 0b00#2⟩ } ∧
    exec (.nrzi false .zero) s = .next { s with
      pol := { s.pol with nrzi := .minus }
      out := ⟨true, 0b001#3, false, 0b11#2, 0b00#2, false, 0b00#2⟩ }) ∧
  (∀ s : State, ∃ t u, exec (.nrzi false .one) s = .next t ∧ exec (.nrzi false .one) t = .next u ∧ u.pol = s.pol) ∧
  (∀ w : BeatWord, w &&& 0x0E#5 = 0x02#5 →
    decode w = .beat (.nrzi (w.getLsbD 4) (if w.getLsbD 0 then .one else .zero))) ∧
  decode 0x03#5 = .beat (.nrzi false .one)

/-- AMI: a 1-bit emits the incoming polarity and then toggles it, a 0-bit emits 0 and leaves it; with F = 1 the incoming
polarity is +1; a run of all 0-bits emits only 0; nothing else changes (42_bipolar.md R110). -/
def Obligations.AmiMarksOnOne : Prop :=
  (∀ (f : Bool) (s : State), (f = true ∨ s.pol.ami = .plus) →
    exec (.ami f .one) s = .next { s with
      pol := { s.pol with ami := .minus }
      out := ⟨true, 0b010#3, false, 0b01#2, 0b00#2, false, 0b00#2⟩ } ∧
    exec (.ami f .zero) s = .next { s with
      pol := { s.pol with ami := .plus }
      out := ⟨true, 0b010#3, false, 0b00#2, 0b00#2, false, 0b00#2⟩ }) ∧
  (∀ s : State, s.pol.ami = .minus →
    exec (.ami false .one) s = .next { s with
      pol := { s.pol with ami := .plus }
      out := ⟨true, 0b010#3, false, 0b11#2, 0b00#2, false, 0b00#2⟩ } ∧
    exec (.ami false .zero) s = .next { s with
      pol := { s.pol with ami := .minus }
      out := ⟨true, 0b010#3, false, 0b00#2, 0b00#2, false, 0b00#2⟩ }) ∧
  (∀ n : Nat, refEncode .ami (List.replicate n .zero) = List.replicate n .zero ∧
    refFinal .ami .plus (List.replicate n .zero) = .plus) ∧
  (∀ w : BeatWord, w &&& 0x0E#5 = 0x04#5 →
    decode w = .beat (.ami (w.getLsbD 4) (if w.getLsbD 0 then .one else .zero))) ∧
  decode 0x05#5 = .beat (.ami false .one)

/-- PT: a 0-bit emits the incoming polarity and then toggles it, a 1-bit emits 0 and leaves it; with F = 1 the incoming
polarity is +1; a run of all 1-bits emits only 0; nothing else changes (42_bipolar.md R112). -/
def Obligations.PseudoternaryMarksOnZero : Prop :=
  (∀ (f : Bool) (s : State), (f = true ∨ s.pol.pt = .plus) →
    exec (.pt f .zero) s = .next { s with
      pol := { s.pol with pt := .minus }
      out := ⟨true, 0b011#3, false, 0b01#2, 0b00#2, false, 0b00#2⟩ } ∧
    exec (.pt f .one) s = .next { s with
      pol := { s.pol with pt := .plus }
      out := ⟨true, 0b011#3, false, 0b00#2, 0b00#2, false, 0b00#2⟩ }) ∧
  (∀ s : State, s.pol.pt = .minus →
    exec (.pt false .zero) s = .next { s with
      pol := { s.pol with pt := .plus }
      out := ⟨true, 0b011#3, false, 0b11#2, 0b00#2, false, 0b00#2⟩ } ∧
    exec (.pt false .one) s = .next { s with
      pol := { s.pol with pt := .minus }
      out := ⟨true, 0b011#3, false, 0b00#2, 0b00#2, false, 0b00#2⟩ }) ∧
  (∀ n : Nat, refEncode .pt (List.replicate n .one) = List.replicate n .zero ∧
    refFinal .pt .plus (List.replicate n .one) = .plus) ∧
  (∀ w : BeatWord, w &&& 0x0E#5 = 0x06#5 →
    decode w = .beat (.pt (w.getLsbD 4) (if w.getLsbD 0 then .one else .zero))) ∧
  decode 0x06#5 = .beat (.pt false .zero)

/-- MAN: a 1-bit emits [+1, -1] and a 0-bit [-1, +1], whatever F and the state; nothing else changes; it is the only
scheme that emits pairs and carries no state (43_manchester.md R120). -/
def Obligations.ManchesterEmitsOppositeHalves : Prop :=
  (∀ (f : Bool) (s : State),
    exec (.man f .one) s = .next { s with out := ⟨true, 0b100#3, true, 0b01#2, 0b11#2, false, 0b00#2⟩ } ∧
    exec (.man f .zero) s = .next { s with out := ⟨true, 0b100#3, true, 0b11#2, 0b01#2, false, 0b00#2⟩ }) ∧
  (∀ w : BeatWord, w &&& 0x0E#5 = 0x08#5 →
    decode w = .beat (.man (w.getLsbD 4) (if w.getLsbD 0 then .one else .zero))) ∧
  (∀ sc, (levelsPerBit sc = 2 ∧ carrierOf sc = none) ↔ sc = .man) ∧
  decode 0x08#5 = .beat (.man false .zero)

/-- DMAN: the polarity toggles on every bit; a 0-bit emits two equal halves at the new level, a 1-bit goes from the
incoming level to the new one; with F = 1 the incoming polarity is +1; nothing else changes (43_manchester.md R123). -/
def Obligations.DifferentialManchesterTogglesEveryBit : Prop :=
  (∀ (f : Bool) (s : State), (f = true ∨ s.pol.dman = .plus) →
    exec (.dman f .zero) s = .next { s with
      pol := { s.pol with dman := .minus }
      out := ⟨true, 0b101#3, true, 0b11#2, 0b11#2, false, 0b00#2⟩ } ∧
    exec (.dman f .one) s = .next { s with
      pol := { s.pol with dman := .minus }
      out := ⟨true, 0b101#3, true, 0b01#2, 0b11#2, false, 0b00#2⟩ }) ∧
  (∀ s : State, s.pol.dman = .minus →
    exec (.dman false .zero) s = .next { s with
      pol := { s.pol with dman := .plus }
      out := ⟨true, 0b101#3, true, 0b01#2, 0b01#2, false, 0b00#2⟩ } ∧
    exec (.dman false .one) s = .next { s with
      pol := { s.pol with dman := .plus }
      out := ⟨true, 0b101#3, true, 0b11#2, 0b01#2, false, 0b00#2⟩ }) ∧
  (∀ w : BeatWord, w &&& 0x0E#5 = 0x0A#5 →
    decode w = .beat (.dman (w.getLsbD 4) (if w.getLsbD 0 then .one else .zero))) ∧
  decode 0x0B#5 = .beat (.dman false .one)

/-! ### What every beat does and leaves alone -/

/-- A beat of a stateful scheme with F = 1 does the same whatever its register holds, namely what the beat with F = 0
does from +1; NRZL and MAN ignore F; a rejected word ignores F and resets nothing (40_beat.md R82). -/
def Obligations.FirstFlagReadsPlusOne : Prop :=
  (∀ (sc : Scheme) (c : Carrier) (b : Bit) (p : Pol) (s : State), carrierOf sc = some c →
    exec (beatOf sc true b) (writePol c p s) = exec (beatOf sc true b) s ∧
    exec (beatOf sc true b) s = exec (beatOf sc false b) (writePol c .plus s)) ∧
  (∀ (b : Bit) (s : State), exec (.nrzl true b) s = exec (.nrzl false b) s ∧
    exec (.man true b) s = exec (.man false b) s) ∧
  (∀ (f : Bool) (b : Bit) (s : State),
    acceptWord (packWord f 0b110#3 b) s =
      .next { s with out := ⟨false, 0b000#3, false, 0b00#2, 0b00#2, true, 0b01#2⟩ } ∧
    acceptWord (packWord f 0b111#3 b) s =
      .next { s with out := ⟨false, 0b000#3, false, 0b00#2, 0b00#2, true, 0b01#2⟩ })

/-- The frame of every beat: exec answers a next state in which every polarity register but its own scheme's, and all
that is not the output stage, is as before (10_state.md R23, 40_beat.md R98). -/
def Obligations.BeatChangesOnlyItsOwnRegister : Prop :=
  ∀ (i : Instr) (s : State), ∃ t, exec i s = .next t ∧ t.host = s.host ∧ t.source = s.source ∧
    t.draws = s.draws ∧ t.wasReset = s.wasReset ∧
    ∀ c : Carrier, carrierScheme c ≠ i.scheme → readPol c t = readPol c s

/-- What a beat emits and writes depends on no register but its own scheme's, and on nothing else of the state: two
states that agree on that register get the same output stage and the same new value (10_state.md R23, 40_beat.md R98). -/
def Obligations.BeatReadsOnlyItsOwnRegister : Prop :=
  ∀ (i : Instr) (s s' : State), (∀ c : Carrier, carrierScheme c = i.scheme → readPol c s = readPol c s') →
    ∃ t t', exec i s = .next t ∧ exec i s' = .next t' ∧ t.out = t'.out ∧
      ∀ c : Carrier, carrierScheme c = i.scheme → readPol c t = readPol c t'

/-- Beats of different schemes may be exchanged: the registers end the same, and each emits what it would have emitted
in the other order (20_memory.md R49, 10_state.md R23). -/
def Obligations.BeatsOfDifferentSchemesCommute : Prop :=
  ∀ (i j : Instr) (s : State), i.scheme ≠ j.scheme →
    ∃ t u t' u', exec i s = .next t ∧ exec j t = .next u ∧ exec j s = .next t' ∧ exec i t' = .next u' ∧
      u.pol = u'.pol ∧ t.out = u'.out ∧ u.out = t'.out

/-- A beat with F = 1, or of a scheme without state, presented twice leaves what presenting it once leaves: the same
output stage and the same registers (20_memory.md R47). -/
def Obligations.RestartingBeatTwiceIsOnce : Prop :=
  ∀ (i : Instr) (s : State), (i.first = true ∨ carrierOf i.scheme = none) →
    ∃ t, exec i s = .next t ∧ exec i t = .next t

/-- A beat emits one level (NRZL, NRZI, AMI, PT) or two (MAN, DMAN), for every bit, flag and incoming polarity, and
`out_pair` says which (40_beat.md R85). -/
def Obligations.BeatEmitsOneOrTwoLevels : Prop :=
  ∀ (i : Instr) (s : State), ∃ t xs, exec i s = .next t ∧ readLevels t = .ok xs ∧
    xs.length = (if i.scheme = .man ∨ i.scheme = .dman then 2 else 1) ∧
    (t.out.outPair = true ↔ xs.length = 2)

/-- A consumer that samples the stage after a beat reads its scheme code, exactly the levels of the scheme's rule, and
no error (40_beat.md R83, R94; 70_reset_and_hazards.md R162). -/
def Obligations.ConsumerReadsWhatTheBeatEmitted : Prop :=
  ∀ (i : Instr) (s : State), ∃ t, exec i s = .next t ∧
    sampleStage t = .ok
      { levels := some (schemeCode i.scheme,
          emissionLevels (schemeRule i.scheme
            (match carrierOf i.scheme with | some c => incoming i.first (readPol c s) | none => .plus) i.bit).2)
        error := none }

/-- The four stateful rules are one fold step with a mark predicate and an action for marks and for other bits, as the
document recommends (40_beat.md R93). -/
def Obligations.StatefulRulesAreTheGenericFold : Prop :=
  ∀ (p : Pol) (b : Bit),
    schemeRule .nrzi p b =
      genericRule (fun x => x == .one) (fun q => (negPol q, .single (levelOf (negPol q))))
        (fun q => (q, .single (levelOf q))) p b ∧
    schemeRule .ami p b =
      genericRule (fun x => x == .one) (fun q => (negPol q, .single (levelOf q))) (fun q => (q, .single .zero)) p b ∧
    schemeRule .pt p b =
      genericRule (fun x => x == .zero) (fun q => (negPol q, .single (levelOf q))) (fun q => (q, .single .zero)) p b ∧
    schemeRule .dman p b =
      genericRule (fun x => x == .zero) (fun q => (negPol q, .pair (levelOf (negPol q)) (levelOf (negPol q))))
        (fun q => (negPol q, .pair (levelOf q) (levelOf (negPol q)))) p b

/-! ### One step of the machine -/

/-- When the next edge presents a word that decodes to `i`, a step takes that edge off the host's stream and is exec of
`i`; the host's placing of a table word makes the next step run it (40_beat.md R80, R81; log entries 1 and 2). -/
def Obligations.StepRunsDecodedInstruction : Prop :=
  (∀ (s : State) (p : Inputs) (rest : List HostEvent) (i : Instr), s.host = .edge p :: rest → p.rst = false →
    p.inValid = true → decode p.inWord = .beat i → step s = exec i { s with host := rest }) ∧
  (∀ (s : State) (nbits w : Nat) (i : Instr), decodeTableWord nbits w = some i →
    step (s.withFetchWord nbits w) = exec i s)

/-- Every step answers a next state: no fault and no refusal, from any state and any input (40_beat.md R81,
60_exceptions.md R136). -/
def Obligations.StepAlwaysAnswersNext : Prop :=
  ∀ s : State, ∃ t, step s = .next t

/-- A step on an edge is the beat-level edge function over the registers: registers and output stage as
`edge(st, rst, in_valid, in_word)` gives them, and nothing else changes (70_reset_and_hazards.md R155) but the model's
own note that a reset edge has come (log entry 15). -/
def Obligations.StepAgreesWithEdgeFunction : Prop :=
  (∀ (s : State) (p : Inputs) (rest : List HostEvent), s.host = .edge p :: rest →
    step s = .next { s with
      pol := (beatLevelEdge s.pol p).1
      out := (beatLevelEdge s.pol p).2
      host := rest
      wasReset := p.rst || s.wasReset }) ∧
  (∀ (st : Polarities) (p : Inputs), p.rst = true →
    beatLevelEdge st p = (⟨.plus, .plus, .plus, .plus⟩, ⟨false, 0b000#3, false, 0b00#2, 0b00#2, false, 0b00#2⟩)) ∧
  (∀ (st : Polarities) (p : Inputs), p.rst = false → p.inValid = false →
    beatLevelEdge st p = (st, ⟨false, 0b000#3, false, 0b00#2, 0b00#2, false, 0b00#2⟩)) ∧
  (∀ (st : Polarities) (p : Inputs) (sc : Scheme) (xs : Emission), p.rst = false → p.inValid = true →
    (beatStep st p.inWord).2 = .emitted sc xs →
    beatLevelEdge st p = ((beatStep st p.inWord).1, stageEmitted sc xs)) ∧
  (∀ (st : Polarities) (p : Inputs) (c : SchemeCode), p.rst = false → p.inValid = true →
    (beatStep st p.inWord).2 = .rejected c →
    beatLevelEdge st p = (st, ⟨false, 0b000#3, false, 0b00#2, 0b00#2, true, 0b01#2⟩))

/-- An edge with `rst` = 1 puts every polarity register at +1 and every output port at 0, whatever `in_valid` and
`in_word` are: no beat is accepted (70_reset_and_hazards.md R150). The model's own mark that reset has been applied is
set (log entry 15). -/
def Obligations.ResetEdgeReinitialisesEverything : Prop :=
  ∀ (s : State) (p : Inputs) (rest : List HostEvent), s.host = .edge p :: rest → p.rst = true →
    step s = .next { s with
      pol := ⟨.plus, .plus, .plus, .plus⟩
      out := ⟨false, 0b000#3, false, 0b00#2, 0b00#2, false, 0b00#2⟩
      host := rest
      wasReset := true }

/-- The output stage holds the result of the last edge and nothing older: what it held before never matters, at an edge
without a beat, or with `rst` = 1, every port becomes 0, and at an edge with a beat the stage is that beat's outcome
(10_state.md R26). -/
def Obligations.OutputStageHoldsOnlyTheLastEdge : Prop :=
  (∀ (s : State) (o : OutStage), step { s with out := o } = step s) ∧
  (∀ (s : State) (p : Inputs) (rest : List HostEvent), s.host = .edge p :: rest → (p.inValid = false ∨ p.rst = true) →
    ∃ t, step s = .next t ∧ t.out = ⟨false, 0b000#3, false, 0b00#2, 0b00#2, false, 0b00#2⟩) ∧
  (∀ (s : State) (p : Inputs) (rest : List HostEvent), s.host = .edge p :: rest → p.rst = false → p.inValid = true →
    ∃ t, step s = .next t ∧ t.out = outcomeStage (beatStep s.pol p.inWord).2)

/-- An edge with `rst` = 0 and `in_valid` = 0 keeps every polarity register, whatever `in_word` is
(40_beat.md R80, 10_state.md R26; a host with nothing more to present is idle by the model's choice, log entry 1). -/
def Obligations.IdleEdgeKeepsThePolarities : Prop :=
  (∀ (s : State) (p : Inputs) (rest : List HostEvent), s.host = .edge p :: rest → p.rst = false → p.inValid = false →
    step s = .next { s with
      out := ⟨false, 0b000#3, false, 0b00#2, 0b00#2, false, 0b00#2⟩
      host := rest }) ∧
  (∀ s : State, s.host = [] →
    step s = .next { s with out := ⟨false, 0b000#3, false, 0b00#2, 0b00#2, false, 0b00#2⟩ })

/-- An accepted word whose scheme code is 110 or 111, with any F and B, changes no polarity register, loads the error
ports and nothing else, and the next beat runs as if it had not been there (60_exceptions.md R131, 40_beat.md R84). -/
def Obligations.RejectedWordChangesNoRegister : Prop :=
  ∀ (s : State) (p : Inputs) (rest : List HostEvent), s.host = .edge p :: rest → p.rst = false → p.inValid = true →
    (p.inWord.extractLsb' 1 3 = 0b110#3 ∨ p.inWord.extractLsb' 1 3 = 0b111#3) →
    ∃ t, step s = .next t ∧
      t = { s with out := ⟨false, 0b000#3, false, 0b00#2, 0b00#2, true, 0b01#2⟩, host := rest } ∧
      ∀ i : Instr, exec i t = exec i { s with host := rest }

/-- `err_valid` is 1 exactly in the cycle after an edge that rejected a word (60_exceptions.md R137). -/
def Obligations.ErrValidExactlyAfterARejectedWord : Prop :=
  ∀ (s : State) (p : Inputs) (rest : List HostEvent), s.host = .edge p :: rest →
    ∃ t, step s = .next t ∧
      (t.out.errValid = true ↔
        p.rst = false ∧ p.inValid = true ∧
          (p.inWord.extractLsb' 1 3 = 0b110#3 ∨ p.inWord.extractLsb' 1 3 = 0b111#3))

/-- After any edge, from any state, every output port has a value the table allows, level code 10 and error codes 10 and
11 are not driven, and `out_valid` and `err_valid` are not both 1 (10_state.md R25; 30_encoding.md R59). -/
def Obligations.PortsAreLegalAfterEveryEdge : Prop :=
  ∀ (s : State) (p : Inputs) (rest : List HostEvent), s.host = .edge p :: rest →
    ∃ t, step s = .next t ∧
      (t.out.outValid = true → t.out.outScheme.toNat ≤ 5 ∧ t.out.errValid = false) ∧
      (t.out.outValid = false → t.out.outScheme = 0b000#3 ∧ t.out.outPair = false ∧ t.out.outLvl0 = 0b00#2) ∧
      (t.out.outPair = true → t.out.outLvl1 = 0b01#2 ∨ t.out.outLvl1 = 0b11#2) ∧
      (t.out.outPair = false → t.out.outLvl1 = 0b00#2) ∧
      t.out.outLvl0 ≠ 0b10#2 ∧ t.out.outLvl1 ≠ 0b10#2 ∧
      (t.out.errValid = true → t.out.errCode = 0b01#2) ∧
      (t.out.errValid = false → t.out.errCode = 0b00#2)

/-- Every step keeps the invariant of a block that has been reset and stays under power: the output ports hold legal
values, and no loss of power is to come (10_state.md R25; 60_exceptions.md R147). -/
def Obligations.StepKeepsLegalPorts : Prop :=
  ∀ s t : State, s.Inv → step s = .next t → t.Inv

/-- The state after reset meets the invariant, whatever the host then presents, as long as it does not remove power
(10_state.md R25, R32). -/
def Obligations.ResetStateHasLegalPorts : Prop :=
  ∀ evs : List HostEvent, evs.all poweredEvent = true → ({ State.reset with host := evs } : State).Inv

/-- Every storage element the spec names is at its reset value in the state after reset; a polarity register at +1 holds
bit 0 (10_state.md R32). -/
def Obligations.ResetLeavesTheTabledValues : Prop :=
  State.reset.pol = ⟨.plus, .plus, .plus, .plus⟩ ∧
    State.reset.out = ⟨false, 0b000#3, false, 0b00#2, 0b00#2, false, 0b00#2⟩ ∧
    (∀ c : Carrier, polWire (readPol c State.reset) = 0#1)

/-- A loss of power retains nothing of the hardware: what the registers and ports held before never matters; and a reset
edge after it gives the reset values, whatever values power came up with (60_exceptions.md R147,
70_reset_and_hazards.md R151, R150; the free values of log entry 3, the mark of reset of log entry 15). -/
def Obligations.PowerLossRetainsNothing : Prop :=
  (∀ (s : State) (ps : Polarities) (o : OutStage) (r : Bool) (rest : List HostEvent), s.host = .powerLoss :: rest →
    step { s with pol := ps, out := o, wasReset := r } = step s) ∧
  (∀ (s : State) (p : Inputs) (rest : List HostEvent), s.host = .powerLoss :: .edge p :: rest → p.rst = true →
    ∃ t u, step s = .next t ∧ t.host = .edge p :: rest ∧ t.wasReset = false ∧ step t = .next u ∧
      u.pol = State.reset.pol ∧ u.out = State.reset.out ∧ u.host = rest ∧ u.wasReset = true)

/-- No two storage elements and no two power-ups of one instance share a free value: a step keeps the source of the free
values and moves their count on by the eleven storage elements exactly when power is lost (70_reset_and_hazards.md R151;
the model's own fields of log entries 3 and 17). -/
def Obligations.PowerLossDrawsFreshValues : Prop :=
  ∀ s : State, ∃ t, step s = .next t ∧ t.source = s.source ∧
    t.draws = (if s.host.head? = some .powerLoss then s.draws + 11 else s.draws) ∧
    (s.host.head? = some .powerLoss →
      t.pol = ⟨polOfBit (Config.drawBit s.source s.draws), polOfBit (Config.drawBit s.source (s.draws + 1)),
        polOfBit (Config.drawBit s.source (s.draws + 2)), polOfBit (Config.drawBit s.source (s.draws + 3))⟩ ∧
      t.out = ⟨Config.drawBit s.source (s.draws + 4), Config.drawCode3 s.source (s.draws + 5),
        Config.drawBit s.source (s.draws + 6), Config.drawCode2 s.source (s.draws + 7),
        Config.drawCode2 s.source (s.draws + 8), Config.drawBit s.source (s.draws + 9),
        Config.drawCode2 s.source (s.draws + 10)⟩)

/-- Every step, a loss of power among them, keeps it that once reset has been applied every port holds a legal value
(10_state.md R25; 93_implementation_defined.md X1, X3, X4; the mark of reset is log entry 15). -/
def Obligations.StepKeepsPortsLegalOnceReset : Prop :=
  ∀ s t : State, LegalOnceReset s → step s = .next t → LegalOnceReset t

/-! ### Runs -/

/-- The hardware's run equals the reference: whatever the state, and whatever beats of other schemes, rejected words and
idle edges stand between, what a consumer reads off the output stage for the scheme is `encode(s, bs)`
(40_beat.md R89). -/
def Obligations.RunEmissionsEqualReference : Prop :=
  ∀ (sc : Scheme) (bs : List Bit) (s : State) (n : Nat), RunWindow sc bs s n →
    collectLevels sc (runCycles n s) = .ok (refEncode sc bs)

/-- A run leaves its register at the reference's last polarity, and an empty run leaves it alone; the block has then
taken exactly the window's events (40_beat.md R87, R88). -/
def Obligations.RunLeavesReferencePolarity : Prop :=
  ∀ (sc : Scheme) (c : Carrier) (bs : List Bit) (s : State) (n : Nat), carrierOf sc = some c → RunWindow sc bs s n →
    ∃ t, runSteps n s = .next t ∧ t.host = s.host.drop n ∧
      readPol c t = (if bs = [] then readPol c s else refFinal sc .plus bs)

/-- Whatever the marks on the beats of a scheme (a first beat without F, overlapping runs), in a window without reset or
power loss the block emits what the beat step says from the polarity it holds (40_beat.md R81, R82;
93_implementation_defined.md X13). -/
def Obligations.MarkedBeatsEmitTheMarkedFold : Prop :=
  ∀ (sc : Scheme) (s : State) (n : Nat), CalmWindow s n →
    collectLevels sc (runCycles n s) =
      .ok (markedLevels sc (match carrierOf sc with | some c => readPol c s | none => .plus)
        (acceptedBeats sc (s.host.take n)))

/-- Beats with F = 0 that follow a run directly continue it: together they emit `encode(s, bs1 ++ bs2)`; and right after
reset beats that all have F = 0 emit `encode(s, bs)` (40_beat.md R92). -/
def Obligations.UnmarkedBeatsContinueTheRun : Prop :=
  (∀ (sc : Scheme) (b : Bit) (bs1 bs2 : List Bit) (s t : State) (n m : Nat), RunWindow sc (b :: bs1) s n →
    runSteps n s = .next t → UnmarkedWindow sc bs2 t m →
    collectLevels sc (runCycles (n + m) s) = .ok (refEncode sc (b :: bs1 ++ bs2))) ∧
  (∀ (sc : Scheme) (bs : List Bit) (s : State) (n : Nat), s.pol = ⟨.plus, .plus, .plus, .plus⟩ →
    UnmarkedWindow sc bs s n → collectLevels sc (runCycles n s) = .ok (refEncode sc bs))

/-- Two runs of one scheme on the same bits emit the same levels, from any two states, whatever stands between their
beats (40_beat.md R91). -/
def Obligations.EqualRunsEmitEqualLevels : Prop :=
  ∀ (sc : Scheme) (bs : List Bit) (s s' : State) (n n' : Nat), RunWindow sc bs s n → RunWindow sc bs s' n' →
    ∃ xs, collectLevels sc (runCycles n s) = .ok xs ∧ collectLevels sc (runCycles n' s') = .ok xs

/-- A reset in the middle of a run: the beat at the reset edge is discarded, the stage is cleared, every polarity is +1,
and later beats with F = 0 start from +1 (70_reset_and_hazards.md R153). -/
def Obligations.ResetAbandonsTheRun : Prop :=
  ∀ (s : State) (p : Inputs) (rest : List HostEvent), s.host = .edge p :: rest → p.rst = true →
    ∃ t, step s = .next t ∧ t.host = rest ∧
      t.out = ⟨false, 0b000#3, false, 0b00#2, 0b00#2, false, 0b00#2⟩ ∧ t.pol = ⟨.plus, .plus, .plus, .plus⟩ ∧
      ∀ (sc : Scheme) (bs : List Bit) (n : Nat), UnmarkedWindow sc bs t n →
        collectLevels sc (runCycles n t) = .ok (refEncode sc bs)

/-- The output of a run is 1 or 2 levels a bit (40_beat.md R86); no bits give no levels, and no beat is presented for
them (R90). -/
def Obligations.RunLengthIsOneOrTwoPerBit : Prop :=
  (∀ (sc : Scheme) (bs : List Bit), (refEncode sc bs).length = levelsPerBit sc * bs.length) ∧
    levelsPerBit .nrzl = 1 ∧ levelsPerBit .nrzi = 1 ∧ levelsPerBit .ami = 1 ∧ levelsPerBit .pt = 1 ∧
    levelsPerBit .man = 2 ∧ levelsPerBit .dman = 2 ∧
    ∀ sc : Scheme, refEncode sc [] = [] ∧ runEvents sc [] = []

/-- NRZ-L runs: one level a bit, +1 exactly at the 1-bits and -1 exactly at the 0-bits (41_nrz.md R102). -/
def Obligations.NrzlRunFollowsTheBits : Prop :=
  ∀ bs : List Bit, (refEncode .nrzl bs).length = bs.length ∧
    ∀ i : Nat, ((refEncode .nrzl bs)[i]? = some .high ↔ bs[i]? = some .one) ∧
      ((refEncode .nrzl bs)[i]? = some .low ↔ bs[i]? = some .zero)

/-- NRZ-I runs: a level equals the one before exactly at a 0-bit, and the first is -1 for a 1 and +1 for a 0
(41_nrz.md R103). -/
def Obligations.NrziRunHoldsExactlyOnZeros : Prop :=
  (∀ (bs : List Bit) (i : Nat), i + 1 < bs.length →
    ((refEncode .nrzi bs)[i + 1]? = (refEncode .nrzi bs)[i]? ↔ bs[i + 1]? = some .zero)) ∧
  (∀ bs : List Bit, (refEncode .nrzi (.one :: bs))[0]? = some .low ∧ (refEncode .nrzi (.zero :: bs))[0]? = some .high)

/-- NRZ-I closed form: the level of a bit is (-1) to the number of 1-bits so far; after each bit the polarity is the
level just emitted; a run of the machine leaves (-1) to the number of 1-bits, and an empty run leaves the register
(41_nrz.md R104). -/
def Obligations.NrziClosedForm : Prop :=
  (∀ (bs : List Bit) (i : Nat), i < bs.length →
    (refEncode .nrzi bs)[i]? = some (signLevel ((bs.take (i + 1)).count .one)) ∧
    (refEncode .nrzi bs)[i]? = some (levelOf (refFinal .nrzi .plus (bs.take (i + 1))))) ∧
  (∀ (bs : List Bit) (s : State) (n : Nat), RunWindow .nrzi bs s n →
    ∃ t, runSteps n s = .next t ∧ t.pol.nrzi = (if bs = [] then s.pol.nrzi else signPol (bs.count .one)))

/-- AMI runs: 0 exactly at the 0-bits, marks +1, -1, +1, ... one per 1-bit, their closed form, the register a run of the
machine leaves, and the worked example (42_bipolar.md R111). -/
def Obligations.AmiRunAlternatesOnOnes : Prop :=
  (∀ (bs : List Bit) (i : Nat), (refEncode .ami bs)[i]? = some .zero ↔ bs[i]? = some .zero) ∧
  (∀ bs : List Bit, nonzeroLevels (refEncode .ami bs) = (List.range (bs.count .one)).map signLevel) ∧
  (∀ (bs : List Bit) (i : Nat), bs[i]? = some .one →
    (refEncode .ami bs)[i]? = some (signLevel ((bs.take i).count .one))) ∧
  (∀ (bs : List Bit) (s : State) (n : Nat), RunWindow .ami bs s n →
    ∃ t, runSteps n s = .next t ∧ t.pol.ami = (if bs = [] then s.pol.ami else signPol (bs.count .one))) ∧
  refEncode .ami [.one, .zero, .one, .one] = [.high, .zero, .low, .high] ∧
  refFinal .ami .plus [.one, .zero, .one, .one] = .minus

/-- Pseudoternary runs: 0 exactly at the 1-bits, marks +1, -1, +1, ... one per 0-bit, their closed form, and the
register a run of the machine leaves (42_bipolar.md R113). -/
def Obligations.PseudoternaryRunAlternatesOnZeros : Prop :=
  (∀ (bs : List Bit) (i : Nat), (refEncode .pt bs)[i]? = some .zero ↔ bs[i]? = some .one) ∧
  (∀ bs : List Bit, nonzeroLevels (refEncode .pt bs) = (List.range (bs.count .zero)).map signLevel) ∧
  (∀ (bs : List Bit) (i : Nat), bs[i]? = some .zero →
    (refEncode .pt bs)[i]? = some (signLevel ((bs.take i).count .zero))) ∧
  (∀ (bs : List Bit) (s : State) (n : Nat), RunWindow .pt bs s n →
    ∃ t, runSteps n s = .next t ∧ t.pol.pt = (if bs = [] then s.pol.pt else signPol (bs.count .zero)))

/-- The mirror law: Pseudoternary on `bs` is AMI on the flipped bits, in its levels, and in the register that a run of
the machine leaves (42_bipolar.md R114). -/
def Obligations.PseudoternaryMirrorsAmi : Prop :=
  (∀ bs : List Bit, refEncode .pt bs = refEncode .ami (bs.map flipBit)) ∧
  (∀ (bs : List Bit) (s s' : State) (n n' : Nat), bs ≠ [] → RunWindow .pt bs s n →
    RunWindow .ami (bs.map flipBit) s' n' →
    ∃ t t', runSteps n s = .next t ∧ runSteps n' s' = .next t' ∧ t.pol.pt = t'.pol.ami)

/-- The alternation of both bipolar codes: after the beats of a run the register is the negation of the last nonzero
level, or +1 if there is none (every beat ends a run on the bits so far), and successive nonzero levels differ
(42_bipolar.md R115). -/
def Obligations.BipolarMarksAlternate : Prop :=
  ∀ (sc : Scheme) (c : Carrier), (sc = .ami ∧ c = .ami ∨ sc = .pt ∧ c = .pt) → ∀ bs : List Bit,
    (∀ (s : State) (n : Nat), bs ≠ [] → RunWindow sc bs s n →
      ∃ t, runSteps n s = .next t ∧
        (match (nonzeroLevels (refEncode sc bs)).getLast? with
         | none => readPol c t = .plus
         | some l => l = levelOf (negPol (readPol c t)))) ∧
    ∀ i : Nat, i + 1 < (nonzeroLevels (refEncode sc bs)).length →
      (nonzeroLevels (refEncode sc bs))[i]? ≠ (nonzeroLevels (refEncode sc bs))[i + 1]?

/-- Manchester runs: the pairs of the bits one after another, twice as many levels as bits, the two of a bit always
different, and the two examples (43_manchester.md R121). -/
def Obligations.ManchesterRunIsBitByBit : Prop :=
  (∀ bs : List Bit, refEncode .man bs = bs.flatMap (fun b => if b = .one then [.high, .low] else [.low, .high])) ∧
  (∀ bs : List Bit, (refEncode .man bs).length = 2 * bs.length) ∧
  (∀ (bs : List Bit) (i : Nat), i < bs.length → (refEncode .man bs)[2 * i]? ≠ (refEncode .man bs)[2 * i + 1]?) ∧
  refEncode .man [.one] = [.high, .low] ∧ refEncode .man [.zero] = [.low, .high]

/-- Differential Manchester closed form: the incoming polarity of bit `i` is (-1) to the `i`, the pairs follow, after
every bit the polarity is the second half just emitted, a run of the machine of n bits leaves (-1) to the n, and an
empty run leaves the register (43_manchester.md R124). -/
def Obligations.DifferentialManchesterClosedForm : Prop :=
  (∀ (bs : List Bit) (i : Nat), i ≤ bs.length → refFinal .dman .plus (bs.take i) = signPol i) ∧
  (∀ (bs : List Bit) (i : Nat), bs[i]? = some .zero →
    halvesOf (refEncode .dman bs) i = (some (signLevel (i + 1)), some (signLevel (i + 1)))) ∧
  (∀ (bs : List Bit) (i : Nat), bs[i]? = some .one →
    halvesOf (refEncode .dman bs) i = (some (signLevel i), some (signLevel (i + 1)))) ∧
  (∀ (bs : List Bit) (i : Nat), i < bs.length →
    (halvesOf (refEncode .dman bs) i).2 = some (levelOf (refFinal .dman .plus (bs.take (i + 1))))) ∧
  (∀ (bs : List Bit) (s : State) (n : Nat), RunWindow .dman bs s n →
    ∃ t, runSteps n s = .next t ∧ t.pol.dman = (if bs = [] then s.pol.dman else signPol bs.length))

/-- Differential Manchester transitions: a 0-bit has a start transition and no mid-bit transition, a 1-bit a mid-bit
transition and no start transition; and the two examples (43_manchester.md R125). -/
def Obligations.DifferentialManchesterTransitions : Prop :=
  (∀ (bs : List Bit) (i : Nat), bs[i]? = some .zero →
    startTransition (refEncode .dman bs) i = true ∧ midTransition (refEncode .dman bs) i = false) ∧
  (∀ (bs : List Bit) (i : Nat), bs[i]? = some .one →
    startTransition (refEncode .dman bs) i = false ∧ midTransition (refEncode .dman bs) i = true) ∧
  refEncode .dman [.one] = [.high, .low] ∧ refEncode .dman [.zero] = [.low, .low]

/-! ### The host, the consumer and the platform -/

/-- The host's parser: `0` and `1` become the bits in order; any other character fails the whole parse and no beat of
the run is presented; the empty text is the empty BitSequence (60_exceptions.md R134, R135). -/
def Obligations.ParserIsStrictAndAtomic : Prop :=
  (∀ (cs : List Char) (bs : List Bit),
    parseBits cs = .ok bs ↔ cs = bs.map (fun b => if b = .one then '1' else '0')) ∧
  (∀ cs : List Char, (∃ c ∈ cs, c ≠ '0' ∧ c ≠ '1') → parseBits cs = .error .invalidSymbol) ∧
  (∀ (order : HostErrorOrder) (q : HostRequest) (s : State), (∃ c ∈ q.text, c ≠ '0' ∧ c ≠ '1') →
    (∃ e, hostRequest order q = .error e) ∧ serveRequest order q s = s) ∧
  parseBits [] = .ok [] ∧ ∀ sc : Scheme, refEncode sc [] = []

/-- The host's selection: the six identifiers exactly as written select their schemes, with the codes 000 to 101; any
other spelling is `UnknownScheme`, no beat is presented and the block is unchanged (60_exceptions.md R132, R133). -/
def Obligations.SelectionMatchesExactly : Prop :=
  selectScheme "NRZ-L".toList = .ok .nrzl ∧ selectScheme "NRZ-I".toList = .ok .nrzi ∧
    selectScheme "Bipolar AMI".toList = .ok .ami ∧ selectScheme "Pseudoternary".toList = .ok .pt ∧
    selectScheme "Manchester".toList = .ok .man ∧ selectScheme "Differential Manchester".toList = .ok .dman ∧
  schemeCode .nrzl = 0b000#3 ∧ schemeCode .nrzi = 0b001#3 ∧ schemeCode .ami = 0b010#3 ∧
    schemeCode .pt = 0b011#3 ∧ schemeCode .man = 0b100#3 ∧ schemeCode .dman = 0b101#3 ∧
  (∀ name : List Char,
    name ∉ ["NRZ-L".toList, "NRZ-I".toList, "Bipolar AMI".toList, "Pseudoternary".toList, "Manchester".toList,
      "Differential Manchester".toList] →
    selectScheme name = .error .unknownScheme ∧
    ∀ (order : HostErrorOrder) (text : List Char) (s : State),
      (∃ e, hostRequest order ⟨name, text⟩ = .error e) ∧ serveRequest order ⟨name, text⟩ s = s)

/-- When both host errors apply, the parameter `HOST_ERROR_ORDER` says which is reported; with one, that one is reported
in either order; the block never sees a difference (60_exceptions.md R138). -/
def Obligations.HostErrorOrderOnlyChoosesTheReport : Prop :=
  (∀ q : HostRequest, selectScheme q.identifier = .error .unknownScheme → parseBits q.text = .error .invalidSymbol →
    hostRequest .unknownSchemeFirst q = .error .unknownScheme ∧
    hostRequest .invalidSymbolFirst q = .error .invalidSymbol) ∧
  (∀ (order : HostErrorOrder) (q : HostRequest) (sc : Scheme), selectScheme q.identifier = .ok sc →
    parseBits q.text = .error .invalidSymbol → hostRequest order q = .error .invalidSymbol) ∧
  (∀ (order : HostErrorOrder) (q : HostRequest) (bs : List Bit), selectScheme q.identifier = .error .unknownScheme →
    parseBits q.text = .ok bs → hostRequest order q = .error .unknownScheme) ∧
  (∀ (order order' : HostErrorOrder) (q : HostRequest) (s : State), serveRequest order q s = serveRequest order' q s)

/-- A valid request served on an idle host, from any state of the block: the levels read are `encode(s, bs)`
(30_encoding.md R65, 60_exceptions.md R140, 70_reset_and_hazards.md R158, R164). That it takes as many edges as bits, with
a result of the scheme in the cycle after each, is the model's choice of a host that presents the run without gaps (log
entry 14); R140 lets a host idle or interleave. -/
def Obligations.ServedRequestYieldsTheEncoding : Prop :=
  ∀ (order : HostErrorOrder) (q : HostRequest) (sc : Scheme) (bs : List Bit) (s : State), s.host = [] →
    selectScheme q.identifier = .ok sc → parseBits q.text = .ok bs →
    (serveRequest order q s).host.length = bs.length ∧
    countBeats sc (runCycles bs.length (serveRequest order q s)) = bs.length ∧
    (∀ t ∈ runCycles bs.length (serveRequest order q s), t.out.outValid = true ∧ t.out.outScheme = schemeCode sc) ∧
    collectLevels sc (runCycles bs.length (serveRequest order q s)) = .ok (refEncode sc bs)

/-- No edge drives a port value a consumer faults on, and before the first reset after a loss of power no value is a
fault: from any state every run completes and every scheme's levels can be read (30_encoding.md R59, 60_exceptions.md
R130, R136; 93_implementation_defined.md X1, X3, X4). -/
def Obligations.EdgesAreSafeForConsumers : Prop :=
  ∀ (s : State) (n : Nat), SafeRun n s

/-- "Reset has been applied" as a launch premise: when the first event is a reset edge, no output depends on the values
the registers and ports held before it, nor does any later state (70_reset_and_hazards.md R151, R154). -/
def Obligations.LaunchResetHidesPowerUpValues : Prop :=
  ∀ (s : State) (ps : Polarities) (o : OutStage) (r : Bool) (n : Nat), LaunchedWithReset s →
    runCycles n { s with pol := ps, out := o, wasReset := r } = runCycles n s

/-- Instances share nothing: under any schedule of steps, an instance ends as it would have ended alone after its own
number of steps (20_memory.md R54, 60_exceptions.md R145). -/
def Obligations.InstancesShareNothing : Prop :=
  ∀ (ks : List Nat) (m : Platform) (k : Nat) (s : State), (∀ j ∈ ks, j < m.instances.length) →
    m.instances[k]? = some s →
    ∃ m' t, runSchedule ks m = .next m' ∧ runSteps (ks.count k) s = .next t ∧ m'.instances[k]? = some t

/-- A platform has `N_INSTANCES` instances, reset and powered up each from a source of free values of its own: nothing
relates the power-up values of two instances (00_scope.md R9, 20_memory.md R54, 70_reset_and_hazards.md R151). The
sources are the model's choice (log entry 17), and so is the count the draws start from, said only as the instance's own
`draws` at reset (log entry 3); the mark of reset is log entry 15. -/
def Obligations.InstancesDrawApart : Prop :=
  ∀ params : PlatformParams,
    (platformReset params).instances.length = params.nInstances ∧
    (platformPowerUp params).instances.length = params.nInstances ∧
    ∀ k : Nat, k < params.nInstances →
      ∃ r t, (platformReset params).instances[k]? = some r ∧ r = { State.reset with source := k } ∧
        (platformPowerUp params).instances[k]? = some t ∧ t.wasReset = false ∧ t.source = k ∧
        t.pol = ⟨polOfBit (Config.drawBit k r.draws), polOfBit (Config.drawBit k (r.draws + 1)),
          polOfBit (Config.drawBit k (r.draws + 2)), polOfBit (Config.drawBit k (r.draws + 3))⟩ ∧
        t.out = ⟨Config.drawBit k (r.draws + 4), Config.drawCode3 k (r.draws + 5), Config.drawBit k (r.draws + 6),
          Config.drawCode2 k (r.draws + 7), Config.drawCode2 k (r.draws + 8), Config.drawBit k (r.draws + 9),
          Config.drawCode2 k (r.draws + 10)⟩
end

