-- ==== Sys2Proof/Laws/State.lean ====
section
/-! SUPPORT. One small lemma per field per update, so that no later proof unfolds a record update. -/

namespace Sys2Proof
namespace Machine

@[simp] theorem get_set_same (ps : Polarities) (c : Carrier) (p : Pol) : (ps.set c p).get c = p := by
  cases c <;> rfl

theorem get_set_other (ps : Polarities) {c d : Carrier} (h : d ≠ c) (p : Pol) : (ps.set c p).get d = ps.get d := by
  cases c <;> cases d <;> first | rfl | exact absurd rfl h

@[simp] theorem get_allPlus (c : Carrier) : Polarities.allPlus.get c = .plus := by cases c <;> rfl

theorem polarities_ext {ps qs : Polarities} (h : ∀ c, ps.get c = qs.get c) : ps = qs := by
  obtain ⟨a, b, c, d⟩ := ps
  obtain ⟨a', b', c', d'⟩ := qs
  have h1 := h .nrzi
  have h2 := h .ami
  have h3 := h .pt
  have h4 := h .dman
  simp only [Polarities.get] at h1 h2 h3 h4
  rw [h1, h2, h3, h4]

@[simp] theorem loadStage_pol (o : OutStage) (s : State) : (loadStage o s).pol = s.pol := rfl
@[simp] theorem loadStage_out (o : OutStage) (s : State) : (loadStage o s).out = o := rfl
@[simp] theorem loadStage_host (o : OutStage) (s : State) : (loadStage o s).host = s.host := rfl
@[simp] theorem loadStage_draws (o : OutStage) (s : State) : (loadStage o s).draws = s.draws := rfl
@[simp] theorem loadStage_source (o : OutStage) (s : State) : (loadStage o s).source = s.source := rfl
@[simp] theorem loadStage_wasReset (o : OutStage) (s : State) : (loadStage o s).wasReset = s.wasReset := rfl
@[simp] theorem loadStage_loadStage (o o' : OutStage) (s : State) :
    loadStage o (loadStage o' s) = loadStage o s := rfl
@[simp] theorem readPol_loadStage (c : Carrier) (o : OutStage) (s : State) :
    readPol c (loadStage o s) = readPol c s := rfl

@[simp] theorem writePol_pol (c : Carrier) (p : Pol) (s : State) : (writePol c p s).pol = s.pol.set c p := rfl
@[simp] theorem writePol_out (c : Carrier) (p : Pol) (s : State) : (writePol c p s).out = s.out := rfl
@[simp] theorem writePol_host (c : Carrier) (p : Pol) (s : State) : (writePol c p s).host = s.host := rfl
@[simp] theorem writePol_draws (c : Carrier) (p : Pol) (s : State) : (writePol c p s).draws = s.draws := rfl
@[simp] theorem writePol_source (c : Carrier) (p : Pol) (s : State) : (writePol c p s).source = s.source := rfl
@[simp] theorem writePol_wasReset (c : Carrier) (p : Pol) (s : State) : (writePol c p s).wasReset = s.wasReset := rfl
@[simp] theorem readPol_writePol_same (c : Carrier) (p : Pol) (s : State) : readPol c (writePol c p s) = p :=
  get_set_same s.pol c p

theorem readPol_writePol_other {c d : Carrier} (h : d ≠ c) (p : Pol) (s : State) :
    readPol d (writePol c p s) = readPol d s :=
  get_set_other s.pol h p

end Machine
end Sys2Proof
end

