-- ==== Sys2Proof/Laws/Ops.lean ====
section
/-! SUPPORT. One lemma per shared operation that says everything it can do, and the small lemmas of the value
functions. -/

namespace Sys2Proof
namespace Machine

@[simp] theorem negPol_negPol (p : Pol) : negPol (negPol p) = p := by cases p <;> rfl
@[simp] theorem incoming_true (p : Pol) : incoming true p = .plus := rfl
@[simp] theorem incoming_false (p : Pol) : incoming false p = p := rfl
@[simp] theorem carrierOf_carrierScheme (c : Carrier) : carrierOf (carrierScheme c) = some c := by cases c <;> rfl

theorem carrierScheme_of_carrierOf {sc : Scheme} {c : Carrier} (h : carrierOf sc = some c) : carrierScheme c = sc := by
  cases sc <;> simp [carrierOf] at h <;> subst h <;> rfl

theorem carrierScheme_injective {c d : Carrier} (h : carrierScheme c = carrierScheme d) : c = d := by
  cases c <;> cases d <;> first | rfl | exact absurd h (by decide)

theorem schemeCode_injective {a b : Scheme} (h : schemeCode a = schemeCode b) : a = b := by
  cases a <;> cases b <;> first | rfl | exact absurd h (by decide)

@[simp] theorem beatOf_scheme (sc : Scheme) (f : Bool) (b : Bit) : (beatOf sc f b).scheme = sc := by cases sc <;> rfl
@[simp] theorem beatOf_first (sc : Scheme) (f : Bool) (b : Bit) : (beatOf sc f b).first = f := by cases sc <;> rfl
@[simp] theorem beatOf_bit (sc : Scheme) (f : Bool) (b : Bit) : (beatOf sc f b).bit = b := by cases sc <;> rfl

/-- Everything a finished beat of a scheme without state does. -/
theorem finishStateless_spec (sc : Scheme) (xs : Emission) (s : State) :
    finishStateless sc xs s = { s with out := stageEmitted sc xs } := rfl

/-- Everything a finished beat of a stateful scheme does. -/
theorem finishCarried_spec (c : Carrier) (r : Pol × Emission) (s : State) :
    finishCarried c r s = { s with pol := s.pol.set c r.1, out := stageEmitted (carrierScheme c) r.2 } := rfl

@[simp] theorem readPol_finishCarried_same (c : Carrier) (r : Pol × Emission) (s : State) :
    readPol c (finishCarried c r s) = r.1 :=
  get_set_same s.pol c r.1

theorem readPol_finishCarried_other {c d : Carrier} (h : d ≠ c) (r : Pol × Emission) (s : State) :
    readPol d (finishCarried c r s) = readPol d s :=
  get_set_other s.pol h r.1

/-- Everything a rejected word does. -/
theorem rejectBeat_spec (code : SchemeCode) (s : State) : rejectBeat code s = { s with out := stageRejected } := rfl

/-- Everything a reset edge does. -/
theorem resetEdge_spec (s : State) :
    resetEdge s = { s with pol := .allPlus, out := .zero, wasReset := true } := rfl

/-- Everything an idle edge does. -/
theorem idleEdge_spec (s : State) : idleEdge s = { s with out := .zero } := rfl

/-- What a loss of power keeps: the model's own fields but for the count of draws and the mark of reset, and nothing of
the hardware. -/
theorem powerCycle_spec (s : State) :
    (powerCycle s).host = s.host ∧ (powerCycle s).source = s.source ∧ (powerCycle s).draws = s.draws + 11 ∧
      (powerCycle s).wasReset = false ∧
      ∀ t : State, t.source = s.source → t.draws = s.draws →
        (powerCycle t).pol = (powerCycle s).pol ∧ (powerCycle t).out = (powerCycle s).out :=
  ⟨rfl, rfl, rfl, rfl, fun t h h' => by simp only [powerCycle, h, h', and_self]⟩

end Machine
end Sys2Proof
end

