-- ==== Sys2Proof/Laws/Exec.lean ====
section
/-! SUPPORT. What `exec`, an edge and a step answer, each said once: the lemmas a later proof cites instead of unfolding
them. -/

namespace Sys2Proof
namespace Machine

/-- A beat of a stateful scheme is its scheme's rule on the incoming polarity, finished on its own register. -/
theorem exec_carried {i : Instr} {c : Carrier} (h : carrierOf i.scheme = some c) (s : State) :
    exec i s = .next (finishCarried c (schemeRule i.scheme (incoming i.first (readPol c s)) i.bit) s) := by
  cases i <;> simp [Instr.scheme, carrierOf] at h <;> subst h <;> rfl

/-- A beat of a scheme without state is its scheme's rule on the bit alone. -/
theorem exec_stateless {i : Instr} (h : carrierOf i.scheme = none) (s : State) :
    exec i s = .next (finishStateless i.scheme (schemeRule i.scheme .plus i.bit).2 s) := by
  cases i <;> simp [Instr.scheme, carrierOf] at h <;> rfl

/-- The stage a beat leaves. -/
theorem exec_out {i : Instr} {s t : State} (h : exec i s = .next t) :
    ∃ p, t.out = stageEmitted i.scheme (schemeRule i.scheme p i.bit).2 := by
  cases i <;> injection h with h <;> subst h
  all_goals first | exact ⟨.plus, rfl⟩ | exact ⟨_, rfl⟩

theorem acceptWord_beat {w : BeatWord} {i : Instr} (h : decode w = .beat i) (s : State) :
    acceptWord w s = exec i s := by
  simp only [acceptWord, h]

theorem acceptWord_reject {w : BeatWord} {code : SchemeCode} (h : decode w = .rejectUnknownScheme code) (s : State) :
    acceptWord w s = .next (rejectBeat code s) := by
  simp only [acceptWord, h]

theorem step_edge {s : State} {p : Inputs} {rest : List HostEvent} (h : s.host = .edge p :: rest) :
    step s = clockEdge p { s with host := rest } := by
  simp only [step, takeEvent, h]

theorem step_powerLoss {s : State} {rest : List HostEvent} (h : s.host = .powerLoss :: rest) :
    step s = .next (powerCycle { s with host := rest }) := by
  simp only [step, takeEvent, h]

theorem step_nothing {s : State} (h : s.host = []) : step s = .next (idleEdge s) := by
  simp only [step, takeEvent, h, clockEdge, idleInputs, Bool.false_eq_true, if_false]

theorem clockEdge_reset {p : Inputs} (h : p.rst = true) (s : State) : clockEdge p s = .next (resetEdge s) := by
  simp only [clockEdge, h, if_true]

theorem clockEdge_idle {p : Inputs} (hr : p.rst = false) (hv : p.inValid = false) (s : State) :
    clockEdge p s = .next (idleEdge s) := by
  simp only [clockEdge, hr, hv, Bool.false_eq_true, if_false]

theorem clockEdge_accept {p : Inputs} (hr : p.rst = false) (hv : p.inValid = true) (s : State) :
    clockEdge p s = acceptWord p.inWord s := by
  simp only [clockEdge, hr, hv, Bool.false_eq_true, if_false, if_true]

theorem readLevelCode_levelCode (r : Bool) (free l : Level) : readLevelCode r free (levelCode l) = .ok l := by
  cases l <;> rfl

/-- A consumer reads off an emitted stage the levels the beat emitted, before the first reset as after it. -/
theorem readLevels_of_emitted {s : State} {sc : Scheme} {xs : Emission} (h : s.out = stageEmitted sc xs) :
    readLevels s = .ok (emissionLevels xs) := by
  cases xs <;>
    simp [readLevels, readLvl0, readLvl1, h, stageEmitted, lvl0Code, lvl1Code, pairFlag, readLevelCode_levelCode,
      emissionLevels]

end Machine
end Sys2Proof
end

