-- ==== Sys2Proof/Laws/PerInstr.lean ====
section
/-! SUPPORT. A statement about every instruction as syntax: its word is its row of the opcode table
(30_encoding.md R66), and it is well formed. -/

namespace Sys2Proof
namespace Laws
namespace EncodingRow

/-- The word of an instruction matches the opcode table's row of its scheme and no other row; the instruction and its
word are well formed (30_encoding.md R61, R66). -/
def Statement (i : Instr) : Prop :=
  i.wellFormed = true ∧ (encode i).wellFormed = true ∧
    ∀ r ∈ opcodeTable, (r.matchesWord (encode i) = true ↔ r.scheme = i.scheme)

theorem nrzl (first : Bool) (bit : Bit) : Statement (.nrzl first bit) := by
  cases first <;> cases bit <;> exact ⟨rfl, by decide, by decide⟩

theorem nrzi (first : Bool) (bit : Bit) : Statement (.nrzi first bit) := by
  cases first <;> cases bit <;> exact ⟨rfl, by decide, by decide⟩

theorem ami (first : Bool) (bit : Bit) : Statement (.ami first bit) := by
  cases first <;> cases bit <;> exact ⟨rfl, by decide, by decide⟩

theorem pt (first : Bool) (bit : Bit) : Statement (.pt first bit) := by
  cases first <;> cases bit <;> exact ⟨rfl, by decide, by decide⟩

theorem man (first : Bool) (bit : Bit) : Statement (.man first bit) := by
  cases first <;> cases bit <;> exact ⟨rfl, by decide, by decide⟩

theorem dman (first : Bool) (bit : Bit) : Statement (.dman first bit) := by
  cases first <;> cases bit <;> exact ⟨rfl, by decide, by decide⟩

end EncodingRow
end Laws
end Sys2Proof
end

