-- ==== Sys2Proof/Laws/Run.lean ====
section
/-! SUPPORT. Small lemmas about runs: the reference function over `++`, the consumer over `++`, steps over `+`, and
what a consumer reads off each kind of stage. -/

namespace Sys2Proof
namespace Machine

theorem signPol_succ (n : Nat) : signPol (n + 1) = negPol (signPol n) := by
  rcases Nat.mod_two_eq_zero_or_one n with h | h
  · have h' : (n + 1) % 2 = 1 := by omega
    simp [signPol, h, h', negPol]
  · have h' : (n + 1) % 2 = 0 := by omega
    simp [signPol, h, h', negPol]

theorem signLevel_ne_succ (n : Nat) : signLevel n ≠ signLevel (n + 1) := by
  unfold signLevel
  rw [signPol_succ]
  cases signPol n <;> decide

theorem levelOf_ne_zero (p : Pol) : levelOf p ≠ .zero := by cases p <;> decide

theorem refGo_append (sc : Scheme) (p : Pol) (a b : List Bit) :
    refGo sc p (a ++ b) = refGo sc p a ++ refGo sc (refFinal sc p a) b := by
  induction a generalizing p with
  | nil => rfl
  | cons x xs ih => simp [refGo, refFinal, ih]

theorem refFinal_append (sc : Scheme) (p : Pol) (a b : List Bit) :
    refFinal sc p (a ++ b) = refFinal sc (refFinal sc p a) b := by
  induction a generalizing p with
  | nil => rfl
  | cons x xs ih => simp [refFinal, ih]

/-- Beats that all have F = 0 emit what the reference emits from the polarity taken in. -/
theorem markedLevels_unmarked (sc : Scheme) (p : Pol) (bs : List Bit) :
    markedLevels sc p (bs.map (fun b => (false, b))) = refGo sc p bs := by
  induction bs generalizing p with
  | nil => rfl
  | cons b bs ih => simp [markedLevels, refGo, ih]

theorem markedFinal_unmarked (sc : Scheme) (p : Pol) (bs : List Bit) :
    markedFinal sc p (bs.map (fun b => (false, b))) = refFinal sc p bs := by
  induction bs generalizing p with
  | nil => rfl
  | cons b bs ih => simp [markedFinal, refFinal, ih]

@[simp] theorem markRun_length (bs : List Bit) : (markRun bs).length = bs.length := by
  cases bs <;> simp [markRun]

theorem markRun_wellMarked (bs : List Bit) : wellMarked (markRun bs) = true := by
  cases bs <;> simp [markRun, wellMarked]

/-- Sampling the stage a beat loads gives its scheme code and its levels, and no error. -/
theorem sampleStage_of_emitted {s : State} {sc : Scheme} {xs : Emission} (h : s.out = stageEmitted sc xs) :
    sampleStage s = .ok { levels := some (schemeCode sc, emissionLevels xs), error := none } := by
  simp [sampleStage, readLevels_of_emitted h, h]
  simp [stageEmitted]

theorem levelsFor_of_emitted (sc : Scheme) {s : State} {sc' : Scheme} {xs : Emission} (h : s.out = stageEmitted sc' xs) :
    levelsFor sc s = .ok (if sc' = sc then emissionLevels xs else []) := by
  unfold levelsFor
  rw [sampleStage_of_emitted h]
  by_cases e : sc' = sc
  · simp [e]
  · have e' : ¬schemeCode sc' = schemeCode sc := fun h => e (schemeCode_injective h)
    simp [e, e']

theorem levelsFor_of_zero (sc : Scheme) {s : State} (h : s.out = .zero) : levelsFor sc s = .ok [] := by
  simp [levelsFor, sampleStage, h, OutStage.zero]

theorem levelsFor_of_rejected (sc : Scheme) {s : State} (h : s.out = stageRejected) : levelsFor sc s = .ok [] := by
  simp [levelsFor, sampleStage, h, stageRejected, unknownSchemeCode]

/-- Before the first reset no reading faults. -/
theorem readLevelCode_unreset (free : Level) (c : LevelCode) : ∃ l, readLevelCode false free c = .ok l := by
  unfold readLevelCode
  repeat' split
  all_goals first | exact ⟨_, rfl⟩ | contradiction

theorem collectLevels_append (sc : Scheme) (a b : List State) {x y : List Level}
    (h : collectLevels sc a = .ok x) (h' : collectLevels sc b = .ok y) : collectLevels sc (a ++ b) = .ok (x ++ y) := by
  induction a generalizing x with
  | nil =>
    simp only [collectLevels, Except.ok.injEq] at h
    subst h
    simpa using h'
  | cons o os ih =>
    simp only [collectLevels] at h
    split at h <;> try (simp at h; done)
    rename_i u v hu hv
    injection h with h
    subst h
    simp only [List.cons_append, collectLevels, hu, ih hv, List.append_assoc]

theorem runCycles_add (n m : Nat) {s t : State} (h : runSteps n s = .next t) :
    runCycles (n + m) s = runCycles n s ++ runCycles m t := by
  induction n generalizing s with
  | zero =>
    injection h with h
    subst h
    simp [runCycles]
  | succ n ih =>
    rw [Nat.add_right_comm]
    simp only [runSteps] at h
    split at h
    · rename_i u hu
      simp only [runCycles, hu, ih h, List.cons_append]
    · simp at h
    · simp at h

end Machine
end Sys2Proof
end

