-- ==== Sys2Proof/Tests/Slice0.lean ====
section
/-! SUPPORT. Tests: expected values come from the spec's tables and worked examples, named in each comment; and for
every statement with hypotheses a witness that meets them together. -/

namespace Sys2Proof
namespace Tests

open Sys2Proof.Machine

/-! ### Well-formedness refuses what it should -/

/-- 30_encoding.md R61: codes 110 and 111 are reserved. -/
theorem test_reserved_words_ill_formed :
    BeatWord.wellFormed 0b01100#5 = false ∧ BeatWord.wellFormed 0b11110#5 = false ∧
      BeatWord.wellFormed 0b11011#5 = true := by decide

/-- 70_reset_and_hazards.md R160: a run whose first beat has F = 0, and a run with a second F = 1. -/
theorem test_mismarked_runs_ill_formed :
    wellMarked [(false, .one)] = false ∧ wellMarked [(true, .one), (true, .zero)] = false ∧
      wellMarked [(true, .one), (false, .zero)] = true := by decide

/-- 00_scope.md R9: `N_INSTANCES` ≥ 1. -/
theorem test_no_instances_ill_formed :
    PlatformParams.wellFormed ⟨0, .invalidSymbolFirst⟩ = false ∧
      PlatformParams.wellFormed ⟨1, .unknownSchemeFirst⟩ = true := by decide

/-- 30_encoding.md R61: both values of F and B are legal in every scheme. -/
theorem test_instr_well_formed :
    Instr.wellFormed (.nrzl true .zero) = true ∧ Instr.wellFormed (.dman false .one) = true := by decide

/-! ### Words written out bit by bit: F, S, B (30_encoding.md R64, R66; 95_test_vectors.md 2.1, 2.2) -/

theorem test_decode_nrzl : decode 0b0_000_1#5 = .beat (.nrzl false .one) := by decide
theorem test_decode_nrzi : decode 0b1_001_1#5 = .beat (.nrzi true .one) := by decide
theorem test_decode_ami : decode 0b1_010_1#5 = .beat (.ami true .one) := by decide
theorem test_decode_pt : decode 0b1_011_0#5 = .beat (.pt true .zero) := by decide
theorem test_decode_man : decode 0b0_100_0#5 = .beat (.man false .zero) := by decide
theorem test_decode_dman : decode 0b0_101_0#5 = .beat (.dman false .zero) := by decide
theorem test_decode_reserved :
    decode 0b0_110_1#5 = .rejectUnknownScheme 0b110#3 ∧ decode 0b1_111_0#5 = .rejectUnknownScheme 0b111#3 := by decide

/-- The numbers of 95_test_vectors.md 2.1 for the same words. -/
theorem test_decode_table_words :
    decodeTableWord 8 0x15 = some (.ami true .one) ∧ decodeTableWord 8 0x0B = some (.dman false .one) ∧
      decodeTableWord 8 0x0C = none := by decide

/-! ### One step of each instruction (95_test_vectors.md 2.1) -/

/-- A state with given registers, a stage that would show a missing load, and nothing more to come. -/
def testState (ps : Polarities) : State :=
  { pol := ps, out := ⟨true, 0b111#3, true, 0b10#2, 0b10#2, true, 0b11#2⟩, host := [], source := 0, draws := 0,
    wasReset := true }

/-- Every register at -1. -/
def allMinus : Polarities := ⟨.minus, .minus, .minus, .minus⟩

/-- What one step on a word leaves in the registers and on the ports, if it answers a next state. -/
def stepOn (ps : Polarities) (w : Nat) : Option (Polarities × OutStage) :=
  match step ((testState ps).withFetchWord 8 w) with
  | .next t => some (t.pol, t.out)
  | .fault _ => none
  | .refused _ => none

/-- Words 0x00 and 0x11 (F ignored). -/
theorem test_step_nrzl :
    stepOn allMinus 0x00 = some (allMinus, ⟨true, 0b000#3, false, 0b11#2, 0b00#2, false, 0b00#2⟩) ∧
      stepOn allMinus 0x11 = some (allMinus, ⟨true, 0b000#3, false, 0b01#2, 0b00#2, false, 0b00#2⟩) := by decide

/-- Words 0x03 and 0x13 from -1. -/
theorem test_step_nrzi :
    stepOn allMinus 0x03 =
        some ({ allMinus with nrzi := .plus }, ⟨true, 0b001#3, false, 0b01#2, 0b00#2, false, 0b00#2⟩) ∧
      stepOn allMinus 0x13 = some (allMinus, ⟨true, 0b001#3, false, 0b11#2, 0b00#2, false, 0b00#2⟩) := by decide

/-- Words 0x05 and 0x15 from -1 (V1: F = 1 emits +1, not -1). -/
theorem test_step_ami :
    stepOn allMinus 0x05 =
        some ({ allMinus with ami := .plus }, ⟨true, 0b010#3, false, 0b11#2, 0b00#2, false, 0b00#2⟩) ∧
      stepOn allMinus 0x15 = some (allMinus, ⟨true, 0b010#3, false, 0b01#2, 0b00#2, false, 0b00#2⟩) := by decide

/-- Words 0x06 and 0x17 from -1. -/
theorem test_step_pt :
    stepOn allMinus 0x06 =
        some ({ allMinus with pt := .plus }, ⟨true, 0b011#3, false, 0b11#2, 0b00#2, false, 0b00#2⟩) ∧
      stepOn allMinus 0x17 =
        some ({ allMinus with pt := .plus }, ⟨true, 0b011#3, false, 0b00#2, 0b00#2, false, 0b00#2⟩) := by decide

/-- Words 0x08 and 0x19 (F ignored). -/
theorem test_step_man :
    stepOn allMinus 0x08 = some (allMinus, ⟨true, 0b100#3, true, 0b11#2, 0b01#2, false, 0b00#2⟩) ∧
      stepOn allMinus 0x19 = some (allMinus, ⟨true, 0b100#3, true, 0b01#2, 0b11#2, false, 0b00#2⟩) := by decide

/-- Words 0x0B and 0x1A from -1. -/
theorem test_step_dman :
    stepOn allMinus 0x0B =
        some ({ allMinus with dman := .plus }, ⟨true, 0b101#3, true, 0b11#2, 0b01#2, false, 0b00#2⟩) ∧
      stepOn allMinus 0x1A = some (allMinus, ⟨true, 0b101#3, true, 0b11#2, 0b11#2, false, 0b00#2⟩) := by decide

/-- 95_test_vectors.md V10: a rejected word with F = 1 resets nothing. -/
theorem test_step_rejected :
    stepOn allMinus 0x1E = some (allMinus, ⟨false, 0b000#3, false, 0b00#2, 0b00#2, true, 0b01#2⟩) := by decide

/-- 95_test_vectors.md V15: `rst` = 1 with `AMI.F 1` presented discards the beat. -/
theorem test_reset_beats_a_beat :
    step { testState allMinus with host := [.edge ⟨true, true, 0x15#5⟩] } =
      .next { testState .allPlus with out := .zero } := rfl

/-- 95_test_vectors.md V14: every port is 0 after an idle edge, and the registers are kept. -/
theorem test_idle_clears_the_stage :
    step { testState allMinus with host := [.edge ⟨false, false, 0x15#5⟩] } =
      .next { testState allMinus with out := .zero } := rfl

/-! ### The document's worked examples (95_test_vectors.md S1 to S8, V4, V11, V13) -/

theorem test_encode_nrzl : refEncode .nrzl [.zero, .one, .zero] = [.low, .high, .low] := by decide
theorem test_encode_nrzi : refEncode .nrzi [.one, .zero, .one, .one] = [.low, .low, .high, .low] := by decide
theorem test_encode_ami : refEncode .ami [.one, .zero, .one, .one] = [.high, .zero, .low, .high] := by decide
theorem test_encode_pt :
    refEncode .pt [.zero, .one, .zero, .zero, .one, .one] = [.high, .zero, .low, .high, .zero, .zero] := by decide
theorem test_encode_man : refEncode .man [.one, .zero] = [.high, .low, .low, .high] := by decide
theorem test_encode_dman :
    refEncode .dman [.zero, .one, .one, .zero] = [.low, .low, .low, .high, .high, .low, .high, .high] := by decide
theorem test_parse_rejects : parseBits "10a1".toList = .error .invalidSymbol := by decide
theorem test_parse_newline : parseBits ['1', '\n'] = .error .invalidSymbol := by decide
theorem test_select_rejects :
    selectScheme "AMI".toList = .error .unknownScheme ∧ selectScheme "nrz-l".toList = .error .unknownScheme := by decide
theorem test_host_error_codes :
    hostErrorCode .unknownScheme = 0b01#2 ∧ hostErrorCode .invalidSymbol = 0b10#2 := by decide
theorem test_assemble_raw : parseLine ".beat 0b01101".toList = some (.raw 0x0D#5) := by decide
theorem test_assemble_first : parseLine "DMAN.F 0".toList = some (.beat .dman true .zero) := by decide
theorem test_assemble_unknown : parseLine "XYZ 1".toList = none := by decide

/-- 30_encoding.md R59: a consumer that sees 10 has seen a fault; 93_implementation_defined.md X4. -/
theorem test_sample_faults :
    sampleStage { State.reset with out := ⟨true, 0b000#3, false, 0b10#2, 0b00#2, false, 0b00#2⟩ } =
        .error .levelCodeNeverDriven ∧
      sampleStage { State.reset with out := ⟨false, 0b000#3, false, 0b00#2, 0b00#2, true, 0b10#2⟩ } =
        .error .errCodeNeverDriven := ⟨rfl, rfl⟩

/-- 93_implementation_defined.md X3, X4: before the first reset the same patterns are any value, and no fault. -/
theorem test_sample_before_reset :
    sampleStage { State.reset with
        out := ⟨true, 0b000#3, false, 0b10#2, 0b00#2, true, 0b10#2⟩, wasReset := false } =
      .ok { levels := some (0b000#3, [Config.drawLevel 0 0]), error := some 0b10#2 } := rfl

/-- 40_beat.md R95: over at the edge after the last beat's; an empty run at no edge. -/
theorem test_run_over : runOverEdge [1, 2, 5] = some 6 ∧ runOverEdge [] = none := by decide

/-! ### Witnesses for the statements' hypotheses -/

/-- A beat-word edge. -/
def ev (w : BeatWord) : HostEvent := .edge (beatInputs w)

/-- All registers stale at -1, a stage no edge would leave, and a stream to run. -/
def streamState (evs : List HostEvent) : State := { testState allMinus with host := evs }

/-- The run of AMI on 10 with a DMAN beat, an idle edge and a rejected word between. -/
def amiStream : State := streamState [ev 0x15#5, ev 0x1B#5, .edge idleInputs, ev 0x0D#5, ev 0x04#5]

/-- The run of PT on 01 with an NRZL beat between. -/
def ptStream : State := streamState [ev 0x16#5, ev 0x01#5, ev 0x07#5]

/-- The run of NRZI on 11, then a beat with F = 0. -/
def nrziStream : State := streamState [ev 0x13#5, ev 0x03#5, ev 0x02#5]

/-- The run of DMAN on 01. -/
def dmanStream : State := streamState [ev 0x1A#5, ev 0x0B#5]

theorem witness_DecodeAndEncodeAgree : decode 0x15#5 = .beat (.ami true .one) := by decide
theorem witness_OpcodeTableDecidesTheScheme :
    (⟨.ami, 0x04#5, 0x0E#5⟩ : OpcodeRow) ∈ opcodeTable ∧ (0x15#5 : BeatWord) &&& 0x0E#5 = 0x04#5 ∧
      (0x1D#5 : BeatWord) &&& 0x0E#5 = 0x0C#5 ∧ (0x0F#5 : BeatWord) &&& 0x0E#5 = 0x0E#5 := by decide
theorem witness_NrzlEmitsTheBitLevel : (0x11#5 : BeatWord) &&& 0x0E#5 = 0x00#5 := by decide
theorem witness_NrziTogglesOnOneAndEmits :
    (true = true ∨ (testState allMinus).pol.nrzi = .plus) ∧ (false = true ∨ State.reset.pol.nrzi = .plus) ∧
      (testState allMinus).pol.nrzi = .minus ∧ (0x13#5 : BeatWord) &&& 0x0E#5 = 0x02#5 := by decide
theorem witness_AmiMarksOnOne :
    (true = true ∨ (testState allMinus).pol.ami = .plus) ∧ (false = true ∨ State.reset.pol.ami = .plus) ∧
      (testState allMinus).pol.ami = .minus ∧ (0x14#5 : BeatWord) &&& 0x0E#5 = 0x04#5 := by decide
theorem witness_PseudoternaryMarksOnZero :
    (true = true ∨ (testState allMinus).pol.pt = .plus) ∧ (false = true ∨ State.reset.pol.pt = .plus) ∧
      (testState allMinus).pol.pt = .minus ∧ (0x17#5 : BeatWord) &&& 0x0E#5 = 0x06#5 := by decide
theorem witness_ManchesterEmitsOppositeHalves : (0x19#5 : BeatWord) &&& 0x0E#5 = 0x08#5 := by decide
theorem witness_DifferentialManchesterTogglesEveryBit :
    (true = true ∨ (testState allMinus).pol.dman = .plus) ∧ (false = true ∨ State.reset.pol.dman = .plus) ∧
      (testState allMinus).pol.dman = .minus ∧ (0x1B#5 : BeatWord) &&& 0x0E#5 = 0x0A#5 := by decide
theorem witness_FirstFlagReadsPlusOne :
    carrierOf .nrzi = some .nrzi ∧ carrierOf .ami = some .ami ∧ carrierOf .pt = some .pt ∧
      carrierOf .dman = some .dman := by decide
theorem witness_BeatChangesOnlyItsOwnRegister : carrierScheme .pt ≠ (Instr.ami false .one).scheme := by decide
theorem witness_BeatReadsOnlyItsOwnRegister :
    ∀ c : Carrier, carrierScheme c = (Instr.nrzi false .one).scheme →
      readPol c (testState allMinus) = readPol c (testState { Polarities.allPlus with nrzi := .minus }) := by
  intro c h
  cases c <;> first | rfl | exact absurd h (by decide)
theorem witness_BeatsOfDifferentSchemesCommute :
    (Instr.ami false .one).scheme ≠ (Instr.dman false .zero).scheme := by decide
theorem witness_RestartingBeatTwiceIsOnce :
    ((Instr.dman true .zero).first = true ∨ carrierOf (Instr.dman true .zero).scheme = none) ∧
      ((Instr.man false .one).first = true ∨ carrierOf (Instr.man false .one).scheme = none) := by decide
theorem witness_StepRunsDecodedInstruction :
    amiStream.host = .edge (beatInputs 0x15#5) :: amiStream.host.tail ∧ (beatInputs 0x15#5).rst = false ∧
      (beatInputs 0x15#5).inValid = true ∧ decode (beatInputs 0x15#5).inWord = .beat (.ami true .one) ∧
      decodeTableWord 5 0x1B = some (.dman true .one) := by decide
theorem witness_StepAgreesWithEdgeFunction :
    amiStream.host = .edge (beatInputs 0x15#5) :: amiStream.host.tail ∧ resetInputs.rst = true ∧
      idleInputs.rst = false ∧ idleInputs.inValid = false ∧ (beatInputs 0x15#5).rst = false ∧
      (beatInputs 0x15#5).inValid = true ∧ (beatStep allMinus 0x15#5).2 = .emitted .ami (.single .high) ∧
      (beatStep allMinus 0x0D#5).2 = .rejected 0b110#3 := by decide
theorem witness_ResetEdgeReinitialisesEverything :
    (streamState [.edge ⟨true, true, 0x15#5⟩]).host = .edge ⟨true, true, 0x15#5⟩ :: [] ∧
      (⟨true, true, 0x15#5⟩ : Inputs).rst = true := by decide
theorem witness_OutputStageHoldsOnlyTheLastEdge :
    (streamState [.edge idleInputs]).host = .edge idleInputs :: [] ∧
      (idleInputs.inValid = false ∨ idleInputs.rst = true) ∧
      ((⟨true, true, 0x15#5⟩ : Inputs).inValid = false ∨ (⟨true, true, 0x15#5⟩ : Inputs).rst = true) ∧
      (beatInputs 0x15#5).rst = false ∧ (beatInputs 0x15#5).inValid = true := by decide
theorem witness_IdleEdgeKeepsThePolarities :
    (streamState [.edge idleInputs]).host = .edge idleInputs :: [] ∧ idleInputs.rst = false ∧
      idleInputs.inValid = false ∧ (testState allMinus).host = [] := by decide
theorem witness_RejectedWordChangesNoRegister :
    (streamState [ev 0x0D#5]).host = .edge (beatInputs 0x0D#5) :: [] ∧ (beatInputs 0x0D#5).rst = false ∧
      (beatInputs 0x0D#5).inValid = true ∧ (beatInputs 0x0D#5).inWord.extractLsb' 1 3 = 0b110#3 ∧
      (beatInputs 0x1F#5).inWord.extractLsb' 1 3 = 0b111#3 := by decide
theorem witness_ErrValidExactlyAfterARejectedWord :
    (streamState [ev 0x0D#5]).host = .edge (beatInputs 0x0D#5) :: [] := by decide
theorem witness_PortsAreLegalAfterEveryEdge :
    amiStream.host = .edge (beatInputs 0x15#5) :: amiStream.host.tail := by decide
theorem witness_StepKeepsLegalPorts :
    ({ State.reset with host := [ev 0x15#5] } : State).Inv ∧
      step { State.reset with host := [ev 0x15#5] } =
        .next { State.reset with
          pol := { Polarities.allPlus with ami := .minus }
          out := ⟨true, 0b010#3, false, 0b01#2, 0b00#2, false, 0b00#2⟩ } :=
  ⟨by decide, rfl⟩
theorem witness_ResetStateHasLegalPorts : [ev 0x15#5, .edge resetInputs].all poweredEvent = true := by decide
theorem witness_PowerLossRetainsNothing :
    (streamState [.powerLoss, .edge resetInputs]).host = .powerLoss :: .edge resetInputs :: [] ∧
      resetInputs.rst = true := by decide
theorem witness_PowerLossDrawsFreshValues :
    (streamState [.powerLoss, .edge resetInputs]).host.head? = some .powerLoss := by decide
theorem witness_StepKeepsPortsLegalOnceReset :
    LegalOnceReset State.reset ∧ State.reset.wasReset = true ∧ step State.reset = .next State.reset ∧
      LegalOnceReset { testState allMinus with wasReset := false } :=
  ⟨by decide, rfl, rfl, by decide⟩
theorem witness_RunEmissionsEqualReference :
    RunWindow .ami [.one, .zero] amiStream 5 ∧ RunWindow .nrzl [] amiStream 5 := by decide
theorem witness_RunLeavesReferencePolarity :
    carrierOf .pt = some .pt ∧ RunWindow .pt [.zero, .one] ptStream 3 ∧ RunWindow .pt [] amiStream 5 := by decide
theorem witness_MarkedBeatsEmitTheMarkedFold : CalmWindow nrziStream 3 := by decide
theorem witness_UnmarkedBeatsContinueTheRun :
    RunWindow .nrzi [.one, .one] nrziStream 2 ∧
      runSteps 2 nrziStream =
        .next { streamState [ev 0x02#5] with
          pol := { allMinus with nrzi := .plus }
          out := ⟨true, 0b001#3, false, 0b01#2, 0b00#2, false, 0b00#2⟩ } ∧
      UnmarkedWindow .nrzi [.zero]
        { streamState [ev 0x02#5] with
          pol := { allMinus with nrzi := .plus }
          out := ⟨true, 0b001#3, false, 0b01#2, 0b00#2, false, 0b00#2⟩ } 1 ∧
      State.reset.pol = ⟨.plus, .plus, .plus, .plus⟩ ∧
      UnmarkedWindow .dman [.one] { State.reset with host := [ev 0x0B#5] } 1 :=
  ⟨by decide, rfl, by decide, rfl, by decide⟩
theorem witness_EqualRunsEmitEqualLevels :
    RunWindow .ami [.one, .zero] amiStream 5 ∧
      RunWindow .ami [.one, .zero] { State.reset with host := runEvents .ami [.one, .zero] } 2 := by decide
theorem witness_ResetAbandonsTheRun :
    (streamState [.edge resetInputs, ev 0x0B#5]).host = .edge resetInputs :: [ev 0x0B#5] ∧ resetInputs.rst = true ∧
      UnmarkedWindow .dman [.one] { State.reset with host := [ev 0x0B#5] } 1 := by decide
theorem witness_NrziRunHoldsExactlyOnZeros : 0 + 1 < [Bit.one, .zero].length := by decide
theorem witness_NrziClosedForm :
    0 < [Bit.one].length ∧ RunWindow .nrzi [.one, .one] nrziStream 2 ∧ RunWindow .nrzi [] amiStream 5 := by decide
theorem witness_AmiRunAlternatesOnOnes :
    [Bit.zero, .one][1]? = some .one ∧ RunWindow .ami [.one, .zero] amiStream 5 ∧
      RunWindow .ami [] ptStream 3 := by decide
theorem witness_PseudoternaryRunAlternatesOnZeros :
    [Bit.one, .zero][1]? = some .zero ∧ RunWindow .pt [.zero, .one] ptStream 3 ∧
      RunWindow .pt [] amiStream 5 := by decide
theorem witness_PseudoternaryMirrorsAmi :
    [Bit.zero, .one] ≠ [] ∧ RunWindow .pt [.zero, .one] ptStream 3 ∧
      RunWindow .ami ([Bit.zero, .one].map flipBit) amiStream 5 := by decide
theorem witness_BipolarMarksAlternate :
    (Scheme.ami = .ami ∧ Carrier.ami = .ami ∨ Scheme.ami = .pt ∧ Carrier.ami = .pt) ∧
      (Scheme.pt = .ami ∧ Carrier.pt = .ami ∨ Scheme.pt = .pt ∧ Carrier.pt = .pt) ∧ [Bit.one, .zero] ≠ [] ∧
      RunWindow .ami [.one, .zero] amiStream 5 ∧ RunWindow .pt [.zero, .one] ptStream 3 ∧
      0 + 1 < (nonzeroLevels (refEncode .ami [.one, .one])).length := by decide
theorem witness_ManchesterRunIsBitByBit : 1 < [Bit.one, .zero].length := by decide
theorem witness_DifferentialManchesterClosedForm :
    2 ≤ [Bit.zero, .one].length ∧ [Bit.zero, .one][0]? = some .zero ∧ [Bit.zero, .one][1]? = some .one ∧
      1 < [Bit.zero, .one].length ∧ RunWindow .dman [.zero, .one] dmanStream 2 ∧
      RunWindow .dman [] ptStream 3 := by decide
theorem witness_DifferentialManchesterTransitions :
    [Bit.zero, .one][0]? = some .zero ∧ [Bit.zero, .one][1]? = some .one := by decide
theorem witness_ParserIsStrictAndAtomic : ∃ c ∈ ['1', 'a'], c ≠ '0' ∧ c ≠ '1' :=
  ⟨'a', by simp, by decide, by decide⟩
theorem witness_SelectionMatchesExactly :
    "AMI".toList ∉ ["NRZ-L".toList, "NRZ-I".toList, "Bipolar AMI".toList, "Pseudoternary".toList,
      "Manchester".toList, "Differential Manchester".toList] := by decide
theorem witness_HostErrorOrderOnlyChoosesTheReport :
    selectScheme ['x'] = .error .unknownScheme ∧ parseBits ['x'] = .error .invalidSymbol ∧
      selectScheme "NRZ-L".toList = .ok .nrzl ∧ parseBits ['1'] = .ok [.one] := by decide
theorem witness_ServedRequestYieldsTheEncoding :
    (testState allMinus).host = [] ∧ selectScheme "Manchester".toList = .ok .man ∧
      parseBits ['1', '0'] = .ok [.one, .zero] := by decide
theorem witness_LaunchResetHidesPowerUpValues : LaunchedWithReset (streamState [.edge resetInputs, ev 0x0B#5]) := by
  decide
theorem witness_InstancesShareNothing :
    (∀ j ∈ [0, 1, 0], j < ({ instances := [amiStream, ptStream] } : Platform).instances.length) ∧
      ({ instances := [amiStream, ptStream] } : Platform).instances[1]? = some ptStream := by decide

theorem witness_InstancesDrawApart : 1 < (⟨2, .invalidSymbolFirst⟩ : PlatformParams).nInstances := by decide

end Tests
end Sys2Proof
end

section
/-! What power-up draws, and the instances of a platform by their number (20_memory.md R54,
70_reset_and_hazards.md R151). -/

namespace Sys2Proof
namespace Machine

/-- The four polarity registers take the first four free values of a power-up, each its own (70_reset_and_hazards.md
R151). -/
theorem powerCycle_pol (s : State) :
    (powerCycle s).pol =
      ⟨polOfBit (Config.drawBit s.source s.draws), polOfBit (Config.drawBit s.source (s.draws + 1)),
        polOfBit (Config.drawBit s.source (s.draws + 2)), polOfBit (Config.drawBit s.source (s.draws + 3))⟩ := rfl

/-- The seven ports take the seven free values after those of the registers, each its own (70_reset_and_hazards.md
R151). -/
theorem powerCycle_out (s : State) :
    (powerCycle s).out =
      ⟨Config.drawBit s.source (s.draws + 4), Config.drawCode3 s.source (s.draws + 5),
        Config.drawBit s.source (s.draws + 6), Config.drawCode2 s.source (s.draws + 7),
        Config.drawCode2 s.source (s.draws + 8), Config.drawBit s.source (s.draws + 9),
        Config.drawCode2 s.source (s.draws + 10)⟩ := rfl

@[simp] theorem powerCycle_source (s : State) : (powerCycle s).source = s.source := rfl
@[simp] theorem powerCycle_wasReset (s : State) : (powerCycle s).wasReset = false := rfl

@[simp] theorem platformReset_length (params : PlatformParams) :
    (platformReset params).instances.length = params.nInstances := by
  simp [platformReset]

@[simp] theorem platformPowerUp_length (params : PlatformParams) :
    (platformPowerUp params).instances.length = params.nInstances := by
  simp [platformPowerUp]

theorem platformReset_getElem? {params : PlatformParams} {k : Nat} (h : k < params.nInstances) :
    (platformReset params).instances[k]? = some (instanceReset k) := by
  simp [platformReset, List.getElem?_range h]

theorem platformPowerUp_getElem? {params : PlatformParams} {k : Nat} (h : k < params.nInstances) :
    (platformPowerUp params).instances[k]? = some (powerCycle (instanceReset k)) := by
  simp [platformPowerUp, List.getElem?_range h]

end Machine
end Sys2Proof

open Sys2Proof.Machine

/-- Settles O60: instance `k` is `instanceReset k` at reset and its power cycle at power-up, and a power cycle draws from
the state's own source, here `k`. -/
theorem instancesDrawApart : Obligations.InstancesDrawApart := by
  intro params
  refine ⟨platformReset_length params, platformPowerUp_length params, fun k hk => ?_⟩
  exact ⟨instanceReset k, powerCycle (instanceReset k), platformReset_getElem? hk, rfl, platformPowerUp_getElem? hk,
    powerCycle_wasReset _, powerCycle_source _, powerCycle_pol _, powerCycle_out _⟩

end

section
/-! An edge is the next-state function of the beat-level model on the registers and ports, and a step is an edge or a
loss of power: everything a step can do, said once (40_beat.md R81; 70_reset_and_hazards.md R155). -/

namespace Sys2Proof
namespace Machine

theorem beatStep_reject {w : BeatWord} {code : SchemeCode} (h : decode w = .rejectUnknownScheme code)
    (st : Polarities) : beatStep st w = (st, .rejected code) := by
  simp only [beatStep, h]

theorem beatStep_stateless {w : BeatWord} {i : Instr} (h : decode w = .beat i) (hc : carrierOf i.scheme = none)
    (st : Polarities) : beatStep st w = (st, .emitted i.scheme (schemeRule i.scheme .plus i.bit).2) := by
  simp only [beatStep, h, hc]

theorem beatStep_carried {w : BeatWord} {i : Instr} {c : Carrier} (h : decode w = .beat i)
    (hc : carrierOf i.scheme = some c) (st : Polarities) :
    beatStep st w =
      (st.set c (schemeRule i.scheme (incoming i.first (st.get c)) i.bit).1,
        .emitted i.scheme (schemeRule i.scheme (incoming i.first (st.get c)) i.bit).2) := by
  simp only [beatStep, h, hc]

/-- A sampled word does to the registers and the ports what the beat-level model says, and nothing else. -/
theorem acceptWord_eq_beatStep (w : BeatWord) (s : State) :
    acceptWord w s =
      .next { s with pol := (beatStep s.pol w).1, out := outcomeStage (beatStep s.pol w).2 } := by
  cases hd : decode w with
  | rejectUnknownScheme code => rw [acceptWord_reject hd, beatStep_reject hd]; rfl
  | beat i =>
    rw [acceptWord_beat hd]
    cases hc : carrierOf i.scheme with
    | none => rw [exec_stateless hc, beatStep_stateless hd hc]; rfl
    | some c =>
      rw [exec_carried hc, finishCarried_spec, carrierScheme_of_carrierOf hc, beatStep_carried hd hc]; rfl

/-- The state an edge leaves: the beat-level model's registers and ports, and the mark of reset. -/
def afterEdge (p : Inputs) (s : State) : State :=
  { s with
    pol := (beatLevelEdge s.pol p).1
    out := (beatLevelEdge s.pol p).2
    wasReset := p.rst || s.wasReset }

@[simp] theorem afterEdge_out (p : Inputs) (s : State) : (afterEdge p s).out = (beatLevelEdge s.pol p).2 := rfl

/-- No edge reads the output stage. -/
@[simp] theorem afterEdge_loadStage (p : Inputs) (o : OutStage) (s : State) :
    afterEdge p (loadStage o s) = afterEdge p s := rfl

/-- Every edge completes, and `afterEdge` is all it does. -/
theorem clockEdge_eq_afterEdge (p : Inputs) (s : State) : clockEdge p s = .next (afterEdge p s) := by
  cases hr : p.rst with
  | true => simp only [clockEdge_reset hr, resetEdge_spec, afterEdge, beatLevelEdge, hr, if_true, Bool.true_or]
  | false =>
    cases hv : p.inValid with
    | true =>
      simp only [clockEdge_accept hr hv, acceptWord_eq_beatStep, afterEdge, beatLevelEdge, hr, hv, if_true,
        Bool.false_eq_true, if_false, Bool.false_or]
    | false =>
      simp only [clockEdge_idle hr hv, idleEdge_spec, afterEdge, beatLevelEdge, hr, hv, Bool.false_eq_true, if_false,
        Bool.false_or]

theorem step_edge_eq_afterEdge {s : State} {p : Inputs} {rest : List HostEvent} (h : s.host = .edge p :: rest) :
    step s = .next (afterEdge p { s with host := rest }) := by
  rw [step_edge h, clockEdge_eq_afterEdge]

/-- Everything a step can do: an edge on the ports the host presents (idle past its last event, log entry 1), or a loss
of power. -/
theorem step_cases {s t : State} (h : step s = .next t) :
    (∃ p, s.host.headD (.edge idleInputs) = .edge p ∧ t = afterEdge p { s with host := s.host.tail }) ∨
      ∃ rest, s.host = .powerLoss :: rest ∧ t = powerCycle { s with host := rest } := by
  match hh : s.host with
  | [] =>
    rw [step_nothing hh] at h
    injection h with h
    refine .inl ⟨idleInputs, rfl, ?_⟩
    rw [← h, List.tail_nil, ← hh]; rfl
  | .edge p :: rest =>
    rw [step_edge_eq_afterEdge hh] at h
    injection h with h
    exact .inl ⟨p, rfl, h.symm⟩
  | .powerLoss :: rest =>
    rw [step_powerLoss hh] at h
    injection h with h
    exact .inr ⟨rest, rfl, h.symm⟩

/-- No step reads the output stage. -/
theorem step_loadStage (o : OutStage) (s : State) : step (loadStage o s) = step s := by
  match hh : s.host with
  | [] =>
    have hh' : (loadStage o s).host = [] := hh
    rw [step_nothing hh, step_nothing hh']; rfl
  | .edge p :: rest =>
    have hh' : (loadStage o s).host = .edge p :: rest := hh
    rw [step_edge_eq_afterEdge hh, step_edge_eq_afterEdge hh']
    exact congrArg _ (afterEdge_loadStage p o { s with host := rest })
  | .powerLoss :: rest =>
    have hh' : (loadStage o s).host = .powerLoss :: rest := hh
    rw [step_powerLoss hh, step_powerLoss hh']; rfl

end Machine
end Sys2Proof
end

section
/-! The stages an edge can load are legal (10_state.md R25): a pair never has 0 as its second half, and the column of
`out_lvl1` asks nothing more of an emission. -/

namespace Sys2Proof
namespace Machine

/-- The legal stages, column by column of the table of 10_state.md R25. -/
theorem OutStage.legal_iff (o : OutStage) :
    o.legal = true ↔
      (o.outValid = true → o.outScheme.toNat ≤ 5 ∧ o.outLvl0 ≠ 0b10#2 ∧ o.errValid = false) ∧
      (o.outValid = false → o.outScheme = 0b000#3 ∧ o.outPair = false ∧ o.outLvl0 = 0b00#2) ∧
      (o.outPair = true → o.outLvl1 = 0b01#2 ∨ o.outLvl1 = 0b11#2) ∧
      (o.outPair = false → o.outLvl1 = 0b00#2) ∧
      (o.errValid = true → o.errCode = 0b01#2) ∧
      (o.errValid = false → o.errCode = 0b00#2) := by
  obtain ⟨valid, scheme, pair, lvl0, lvl1, err, code⟩ := o
  cases valid <;> cases pair <;> cases err <;> simp [OutStage.legal, and_assoc]

theorem schemeCode_toNat_le (sc : Scheme) : (schemeCode sc).toNat ≤ 5 := by cases sc <;> decide

theorem levelCode_ne_undriven (l : Level) : levelCode l ≠ 0b10#2 := by cases l <;> decide

theorem levelCode_of_ne_zero {l : Level} (h : l ≠ .zero) : levelCode l = 0b01#2 ∨ levelCode l = 0b11#2 := by
  cases l with
  | low => exact .inr rfl
  | zero => exact absurd rfl h
  | high => exact .inl rfl

theorem zero_legal : OutStage.zero.legal = true := rfl

theorem stageRejected_legal : stageRejected.legal = true := rfl

theorem stageEmitted_legal (sc : Scheme) {xs : Emission} (h : ∀ a, xs ≠ .pair a .zero) :
    (stageEmitted sc xs).legal = true := by
  cases xs with
  | single a =>
    simp [OutStage.legal_iff, stageEmitted, pairFlag, lvl0Code, lvl1Code, schemeCode_toNat_le, levelCode_ne_undriven]
  | pair a b =>
    have hb : b ≠ .zero := fun e => h a (e ▸ rfl)
    simp [OutStage.legal_iff, stageEmitted, pairFlag, lvl0Code, lvl1Code, schemeCode_toNat_le, levelCode_ne_undriven,
      levelCode_of_ne_zero hb]

/-- Level 0 belongs to the single-level bipolar codes; the halves of a pair are +1 or -1. -/
theorem schemeRule_ne_pair_zero (sc : Scheme) (p : Pol) (b : Bit) (a : Level) :
    (schemeRule sc p b).2 ≠ .pair a .zero := by
  cases sc with
  | nrzl | nrzi | ami | pt | man => cases b <;> simp [schemeRule, ruleNrzl, ruleNrzi, ruleAmi, rulePt, ruleMan]
  | dman => cases b <;> simp [schemeRule, ruleDman, levelOf_ne_zero]

theorem beatStep_stage_legal (st : Polarities) (w : BeatWord) : (outcomeStage (beatStep st w).2).legal = true := by
  cases hd : decode w with
  | rejectUnknownScheme code => rw [beatStep_reject hd]; exact stageRejected_legal
  | beat i =>
    cases hc : carrierOf i.scheme with
    | none => rw [beatStep_stateless hd hc]; exact stageEmitted_legal _ (schemeRule_ne_pair_zero _ _ _)
    | some c => rw [beatStep_carried hd hc]; exact stageEmitted_legal _ (schemeRule_ne_pair_zero _ _ _)

theorem beatLevelEdge_legal (st : Polarities) (p : Inputs) : (beatLevelEdge st p).2.legal = true := by
  unfold beatLevelEdge
  split
  · exact zero_legal
  · split
    · exact beatStep_stage_legal st p.inWord
    · exact zero_legal

theorem afterEdge_legal (p : Inputs) (s : State) : (afterEdge p s).out.legal = true := beatLevelEdge_legal s.pol p

end Machine
end Sys2Proof

open Sys2Proof.Machine

/-- Settles O30: a step of a block that keeps power is an edge, which leaves a legal stage whatever stood there before and
takes at most one event. -/
theorem stepKeepsLegalPorts : Obligations.StepKeepsLegalPorts := by
  intro s t ⟨_, hpower⟩ hstep
  obtain ⟨p, -, rfl⟩ | ⟨rest, hloss, -⟩ := step_cases hstep
  · refine ⟨afterEdge_legal p _, List.all_eq_true.mpr fun e he => ?_⟩
    exact List.all_eq_true.mp hpower e (List.mem_of_mem_tail he)
  · simp [hloss, poweredEvent] at hpower

/-- Settles O29: an edge leaves a legal stage, read column by column. -/
theorem portsAreLegalAfterEveryEdge : Obligations.PortsAreLegalAfterEveryEdge := by
  intro s p rest h
  refine ⟨_, step_edge_eq_afterEdge h, ?_⟩
  obtain ⟨hvalid, hinvalid, hpair, hsingle, herr, hnoerr⟩ :=
    (OutStage.legal_iff _).mp (afterEdge_legal p { s with host := rest })
  generalize (afterEdge p { s with host := rest }).out = o at *
  refine ⟨fun hv => ⟨(hvalid hv).1, (hvalid hv).2.2⟩, hinvalid, hpair, hsingle, ?_, ?_, herr, hnoerr⟩
  · cases hv : o.outValid with
    | true => exact (hvalid hv).2.1
    | false => simp [(hinvalid hv).2.2]
  · cases hp : o.outPair with
    | true => rcases hpair hp with e | e <;> simp [e]
    | false => simp [hsingle hp]

/-- Settles O59: an edge leaves a legal stage, and a loss of power clears the mark of reset. -/
theorem stepKeepsPortsLegalOnceReset : Obligations.StepKeepsPortsLegalOnceReset := by
  intro s t _ hstep hreset
  obtain ⟨p, -, rfl⟩ | ⟨rest, -, rfl⟩ := step_cases hstep
  · exact afterEdge_legal p _
  · simp at hreset

/-- Settles O31. -/
theorem resetStateHasLegalPorts : Obligations.ResetStateHasLegalPorts := fun _ hpower => ⟨zero_legal, hpower⟩

/-- Settles O32. -/
theorem resetLeavesTheTabledValues : Obligations.ResetLeavesTheTabledValues :=
  ⟨rfl, rfl, fun c => congrArg polWire (get_allPlus c)⟩

/-- Settles O25: no step reads the stage it replaces, and `afterEdge` gives the new one. -/
theorem outputStageHoldsOnlyTheLastEdge : Obligations.OutputStageHoldsOnlyTheLastEdge := by
  refine ⟨fun s o => step_loadStage o s, fun s p rest h hno => ?_, fun s p rest h hr hv => ?_⟩
  · refine ⟨_, step_edge_eq_afterEdge h, ?_⟩
    rcases hno with hv | hr
    · cases hr : p.rst <;> simp [beatLevelEdge, hv, hr, OutStage.zero]
    · simp [beatLevelEdge, hr, OutStage.zero]
  · exact ⟨_, step_edge_eq_afterEdge h, by simp [beatLevelEdge, hr, hv]⟩

/-- Settles O26. -/
theorem idleEdgeKeepsThePolarities : Obligations.IdleEdgeKeepsThePolarities := by
  refine ⟨fun s p rest h hr hv => ?_, fun s h => step_nothing h⟩
  rw [step_edge h, clockEdge_idle hr hv]; rfl

end

section
/-! What a beat reads and writes: no polarity register but its own scheme's (10_state.md R23, 40_beat.md R98). -/

namespace Sys2Proof
namespace Machine

theorem exec_completes (i : Instr) (s : State) : ∃ t, exec i s = .next t := by
  cases hc : carrierOf i.scheme with
  | none => exact ⟨_, exec_stateless hc s⟩
  | some c => exact ⟨_, exec_carried hc s⟩

/-- Everything a beat can do: finish without a register, or with its scheme's own one. -/
theorem exec_cases {i : Instr} {s t : State} (h : exec i s = .next t) :
    (carrierOf i.scheme = none ∧ t = finishStateless i.scheme (schemeRule i.scheme .plus i.bit).2 s) ∨
      ∃ c, carrierScheme c = i.scheme ∧
        t = finishCarried c (schemeRule i.scheme (incoming i.first (readPol c s)) i.bit) s := by
  cases hc : carrierOf i.scheme with
  | none =>
    rw [exec_stateless hc] at h
    injection h with h
    exact .inl ⟨rfl, h.symm⟩
  | some c =>
    rw [exec_carried hc] at h
    injection h with h
    exact .inr ⟨c, carrierScheme_of_carrierOf hc, h.symm⟩

/-- A beat changes nothing but the registers and the output stage. -/
theorem exec_frame {i : Instr} {s t : State} (h : exec i s = .next t) :
    t.host = s.host ∧ t.source = s.source ∧ t.draws = s.draws ∧ t.wasReset = s.wasReset := by
  obtain ⟨-, rfl⟩ | ⟨c, -, rfl⟩ := exec_cases h
  · exact ⟨rfl, rfl, rfl, rfl⟩
  · exact ⟨rfl, rfl, rfl, rfl⟩

/-- A beat keeps every register of another scheme. -/
theorem readPol_exec_other {i : Instr} {s t : State} {c : Carrier} (h : exec i s = .next t)
    (hne : carrierScheme c ≠ i.scheme) : readPol c t = readPol c s := by
  obtain ⟨-, rfl⟩ | ⟨d, hown, rfl⟩ := exec_cases h
  · rfl
  · have hcd : c ≠ d := fun e => hne ((congrArg carrierScheme e).trans hown)
    exact readPol_finishCarried_other hcd _ s

/-- The states `s` and `s'` hold the same polarity for scheme `sc`, if it holds one. -/
def AgreeOn (sc : Scheme) (s s' : State) : Prop := ∀ c, carrierScheme c = sc → readPol c s = readPol c s'

/-- A beat leaves the same stage and the same polarity of its scheme in any two states that agree on the latter. -/
theorem exec_agree {i : Instr} {s s' t t' : State} (h : exec i s = .next t) (h' : exec i s' = .next t')
    (hag : AgreeOn i.scheme s s') : t.out = t'.out ∧ AgreeOn i.scheme t t' := by
  cases hc : carrierOf i.scheme with
  | none =>
    rw [exec_stateless hc] at h h'
    injection h with h; injection h' with h'; subst h h'
    exact ⟨rfl, hag⟩
  | some c =>
    have hown := carrierScheme_of_carrierOf hc
    rw [exec_carried hc, hag c hown] at h
    rw [exec_carried hc] at h'
    injection h with h; injection h' with h'; subst h h'
    refine ⟨rfl, fun d hd => ?_⟩
    obtain rfl := carrierScheme_injective (hd.trans hown.symm)
    rw [readPol_finishCarried_same, readPol_finishCarried_same]

/-- Another scheme's beat before it makes no difference to what a beat emits and writes. -/
theorem exec_agree_after_other {i j : Instr} {s t u t' : State} (hne : i.scheme ≠ j.scheme) (hi : exec i s = .next t)
    (hij : exec j t = .next u) (hj : exec j s = .next t') : u.out = t'.out ∧ AgreeOn j.scheme u t' :=
  exec_agree hij hj fun _ hc => readPol_exec_other hi fun e => hne (e.symm.trans hc)

end Machine
end Sys2Proof

open Sys2Proof.Machine

/-- Settles O14: a beat finishes without a register, or with its scheme's own one. -/
theorem beatChangesOnlyItsOwnRegister : Obligations.BeatChangesOnlyItsOwnRegister := by
  intro i s
  obtain ⟨t, h⟩ := exec_completes i s
  obtain ⟨hhost, hsource, hdraws, hreset⟩ := exec_frame h
  exact ⟨t, h, hhost, hsource, hdraws, hreset, fun _ hc => readPol_exec_other h hc⟩

/-- Settles O15: a beat's rule takes in nothing but its scheme's own polarity. -/
theorem beatReadsOnlyItsOwnRegister : Obligations.BeatReadsOnlyItsOwnRegister := by
  intro i s s' hag
  obtain ⟨t, h⟩ := exec_completes i s
  obtain ⟨t', h'⟩ := exec_completes i s'
  exact ⟨t, t', h, h', exec_agree h h' hag⟩

/-- Settles O16: each beat emits and writes the same before the other as after it, and a register belongs to one of the
two beats or to neither. -/
theorem beatsOfDifferentSchemesCommute : Obligations.BeatsOfDifferentSchemesCommute := by
  intro i j s hne
  obtain ⟨t, hi⟩ := exec_completes i s
  obtain ⟨u, hij⟩ := exec_completes j t
  obtain ⟨t', hj⟩ := exec_completes j s
  obtain ⟨u', hji⟩ := exec_completes i t'
  obtain ⟨houtj, hregj⟩ := exec_agree_after_other hne hi hij hj
  obtain ⟨houti, hregi⟩ := exec_agree_after_other hne.symm hj hji hi
  refine ⟨t, u, t', u', hi, hij, hj, hji, polarities_ext fun c => ?_, houti.symm, houtj⟩
  change readPol c u = readPol c u'
  by_cases hci : carrierScheme c = i.scheme
  · calc readPol c u = readPol c t := readPol_exec_other hij (hci ▸ hne)
      _ = readPol c u' := (hregi c hci).symm
  · by_cases hcj : carrierScheme c = j.scheme
    · calc readPol c u = readPol c t' := hregj c hcj
        _ = readPol c u' := (readPol_exec_other hji hci).symm
    · calc readPol c u = readPol c t := readPol_exec_other hij hcj
        _ = readPol c s := readPol_exec_other hi hci
        _ = readPol c t' := (readPol_exec_other hj hcj).symm
        _ = readPol c u' := (readPol_exec_other hji hci).symm

end

section
/-! A beat that takes in no held polarity may be presented again (20_memory.md R47). -/

namespace Sys2Proof
namespace Machine

@[simp] theorem set_set_same (ps : Polarities) (c : Carrier) (p q : Pol) : (ps.set c p).set c q = ps.set c q := by
  cases c <;> rfl

@[simp] theorem finishStateless_finishStateless (sc sc' : Scheme) (xs xs' : Emission) (s : State) :
    finishStateless sc xs (finishStateless sc' xs' s) = finishStateless sc xs s := rfl

@[simp] theorem finishCarried_finishCarried (c : Carrier) (r r' : Pol × Emission) (s : State) :
    finishCarried c r (finishCarried c r' s) = finishCarried c r s := by
  simp only [finishCarried_spec, set_set_same]

/-- A first beat of a stateful scheme is its scheme's rule on +1, whatever the register holds. -/
theorem exec_first {i : Instr} {c : Carrier} (hc : carrierOf i.scheme = some c) (hf : i.first = true) (s : State) :
    exec i s = .next (finishCarried c (schemeRule i.scheme .plus i.bit) s) := by
  rw [exec_carried hc, hf, incoming_true]

end Machine
end Sys2Proof

open Sys2Proof.Machine

/-- Settles O17: what such a beat stores does not depend on the state, so the second time it stores the same. -/
theorem restartingBeatTwiceIsOnce : Obligations.RestartingBeatTwiceIsOnce := by
  intro i s h
  cases hc : carrierOf i.scheme with
  | none => exact ⟨_, exec_stateless hc s, by rw [exec_stateless hc, finishStateless_finishStateless]⟩
  | some c =>
    have hf : i.first = true := h.resolve_right (by simp [hc])
    exact ⟨_, exec_first hc hf s, by rw [exec_first hc hf, finishCarried_finishCarried]⟩

end

section
/-! A step of a platform is a step of one instance, and a schedule runs to its end (20_memory.md R54,
60_exceptions.md R145). -/

namespace Sys2Proof
namespace Machine

/-- Every step completes: an edge does, and so does a loss of power (60_exceptions.md R136). -/
theorem step_completes (s : State) : ∃ t, step s = .next t := by
  match hh : s.host with
  | [] => exact ⟨_, step_nothing hh⟩
  | .edge p :: rest => exact ⟨_, step_edge_eq_afterEdge hh⟩
  | .powerLoss :: rest => exact ⟨_, step_powerLoss hh⟩

theorem runSteps_succ {s t : State} (h : step s = .next t) (n : Nat) : runSteps (n + 1) s = runSteps n t := by
  simp only [runSteps, h]

theorem stepInstance_eq {k : Nat} {m : Platform} {s t : State} (hk : m.instances[k]? = some s)
    (h : step s = .next t) : stepInstance k m = .next { instances := m.instances.set k t } := by
  simp only [stepInstance, hk, h]

theorem runSchedule_cons {k : Nat} {m m' : Platform} (h : stepInstance k m = .next m') (ks : List Nat) :
    runSchedule (k :: ks) m = runSchedule ks m' := by
  simp only [runSchedule, h]

/-- A step of an instance the platform has completes; it makes that instance step and keeps every other one. -/
theorem stepInstance_spec {j : Nat} {m : Platform} (hj : j < m.instances.length) :
    ∃ m', stepInstance j m = .next m' ∧ m'.instances.length = m.instances.length ∧
      (∀ s, m.instances[j]? = some s → ∃ t, step s = .next t ∧ m'.instances[j]? = some t) ∧
      ∀ k, k ≠ j → m'.instances[k]? = m.instances[k]? := by
  obtain ⟨t, ht⟩ := step_completes m.instances[j]
  have hget : m.instances[j]? = some m.instances[j] := List.getElem?_eq_getElem hj
  refine ⟨_, stepInstance_eq hget ht, List.length_set, fun s hs => ?_, fun k hk => List.getElem?_set_ne hk.symm⟩
  obtain rfl := Option.some.inj (hget.symm.trans hs)
  exact ⟨t, ht, List.getElem?_set_self hj⟩

end Machine
end Sys2Proof

open Sys2Proof.Machine

/-- Settles O57, by induction on the schedule: its first step is the first of instance `k` alone, or one that leaves `k`
as it is and is not counted. -/
theorem instancesShareNothing : Obligations.InstancesShareNothing := by
  intro ks
  induction ks with
  | nil => exact fun m _ s _ hs => ⟨m, s, rfl, rfl, hs⟩
  | cons j ks ih =>
    intro m k s hlt hs
    obtain ⟨m₁, hstep, hlen, hself, hother⟩ := stepInstance_spec (hlt j List.mem_cons_self)
    have hlt₁ : ∀ i ∈ ks, i < m₁.instances.length := fun i hi => hlen ▸ hlt i (List.mem_cons_of_mem j hi)
    rw [runSchedule_cons hstep]
    by_cases hkj : k = j
    · subst hkj
      obtain ⟨t, ht, hget⟩ := hself s hs
      rw [List.count_cons_self, runSteps_succ ht]
      exact ih m₁ k t hlt₁ hget
    · rw [List.count_cons_of_ne (Ne.symm hkj)]
      exact ih m₁ k s hlt₁ ((hother k hkj).trans hs)

end

section
/-! The fields of a beat word and the decoder: packing and reading the fields are inverse, and the scheme field alone
decides between a beat and a rejection (30_encoding.md R55, R57, R60). -/

namespace Sys2Proof
namespace Machine

@[simp] theorem wordFirst_packWord (f : Bool) (c : SchemeCode) (b : Bit) : wordFirst (packWord f c b) = f := by
  cases f <;> cases b <;> revert c <;> decide

@[simp] theorem wordScheme_packWord (f : Bool) (c : SchemeCode) (b : Bit) : wordScheme (packWord f c b) = c := by
  cases f <;> cases b <;> revert c <;> decide

@[simp] theorem wordBit_packWord (f : Bool) (c : SchemeCode) (b : Bit) : wordBit (packWord f c b) = b := by
  cases f <;> cases b <;> revert c <;> decide

/-- A word is its three fields (30_encoding.md R55). -/
theorem packWord_fields (w : BeatWord) : packWord (wordFirst w) (wordScheme w) (wordBit w) = w := by
  revert w; decide

/-- The scheme code table assigns every code but the two reserved ones (30_encoding.md R57). -/
theorem schemeCode_or_reserved (c : SchemeCode) : (∃ sc, c = schemeCode sc) ∨ c = 0b110#3 ∨ c = 0b111#3 := by
  match c with
  | 0b000#3 => exact .inl ⟨.nrzl, rfl⟩
  | 0b001#3 => exact .inl ⟨.nrzi, rfl⟩
  | 0b010#3 => exact .inl ⟨.ami, rfl⟩
  | 0b011#3 => exact .inl ⟨.pt, rfl⟩
  | 0b100#3 => exact .inl ⟨.man, rfl⟩
  | 0b101#3 => exact .inl ⟨.dman, rfl⟩
  | 0b110#3 => exact .inr (.inl rfl)
  | 0b111#3 => exact .inr (.inr rfl)

theorem schemeCode_not_reserved (sc : Scheme) : ¬(schemeCode sc = 0b110#3 ∨ schemeCode sc = 0b111#3) := by
  cases sc <;> decide

/-- A word with the code of a scheme decodes to that scheme's beat, with the word's F and B. -/
theorem decode_of_scheme {w : BeatWord} {sc : Scheme} (h : wordScheme w = schemeCode sc) :
    decode w = .beat (beatOf sc (wordFirst w) (wordBit w)) := by
  unfold decode
  rw [h]
  cases sc <;> rfl

/-- A word with a reserved code is rejected, and the rejection reports the code (30_encoding.md R60). -/
theorem decode_of_reserved {w : BeatWord} (h : wordScheme w = 0b110#3 ∨ wordScheme w = 0b111#3) :
    decode w = .rejectUnknownScheme (wordScheme w) := by
  unfold decode
  rcases h with h | h <;> rw [h] <;> rfl

theorem beatOf_fields (i : Instr) : beatOf i.scheme i.first i.bit = i := by cases i <;> rfl

theorem decode_encode (i : Instr) : decode (encode i) = .beat i := by
  have h : wordScheme (encode i) = schemeCode i.scheme := wordScheme_packWord _ _ _
  rw [decode_of_scheme h, encode, wordFirst_packWord, wordBit_packWord, beatOf_fields]

theorem encode_beatOf_fields {w : BeatWord} {sc : Scheme} (h : wordScheme w = schemeCode sc) :
    encode (beatOf sc (wordFirst w) (wordBit w)) = w := by
  rw [encode, beatOf_first, beatOf_scheme, beatOf_bit, ← h, packWord_fields]

/-- Decoding and encoding are inverse on the words that decode. -/
theorem decode_eq_beat_iff {w : BeatWord} {i : Instr} : decode w = .beat i ↔ encode i = w := by
  refine ⟨fun hd => ?_, fun he => he ▸ decode_encode i⟩
  rcases schemeCode_or_reserved (wordScheme w) with ⟨sc, h⟩ | h
  · obtain rfl := DecodedBeat.beat.inj ((decode_of_scheme h).symm.trans hd)
    exact encode_beatOf_fields h
  · cases (decode_of_reserved h).symm.trans hd

theorem decode_eq_beatOf_iff {w : BeatWord} {sc : Scheme} :
    decode w = .beat (beatOf sc (wordFirst w) (wordBit w)) ↔ wordScheme w = schemeCode sc := by
  refine ⟨fun hd => ?_, decode_of_scheme⟩
  rw [← decode_eq_beat_iff.mp hd, encode, beatOf_scheme, wordScheme_packWord]

theorem decode_eq_reject_iff {w : BeatWord} :
    decode w = .rejectUnknownScheme (wordScheme w) ↔ wordScheme w = 0b110#3 ∨ wordScheme w = 0b111#3 := by
  refine ⟨fun hd => ?_, decode_of_reserved⟩
  rcases schemeCode_or_reserved (wordScheme w) with ⟨sc, h⟩ | h
  · cases (decode_of_scheme h).symm.trans hd
  · exact h

end Machine
end Sys2Proof

open Sys2Proof Sys2Proof.Machine

/-- Settles O1. -/
theorem decodeAndEncodeAgree : Obligations.DecodeAndEncodeAgree :=
  ⟨decode_encode, fun _ _ => decode_eq_beat_iff.mp⟩

/-- Settles O2, by the code in the scheme field: one of the six assigned or one of the two reserved. -/
theorem decodeIsTotalOverThirtyTwoWords : Obligations.DecodeIsTotalOverThirtyTwoWords := by
  refine ⟨fun w => ?_, by decide, by decide⟩
  rcases schemeCode_or_reserved (wordScheme w) with ⟨sc, h⟩ | h
  · have hw : w.extractLsb' 1 3 = schemeCode sc := h
    rw [decode_of_scheme h, hw]
    cases sc <;> rfl
  · have hw : wordScheme w = w.extractLsb' 1 3 := rfl
    rw [decode_of_reserved h]
    rcases h with h | h <;> rw [← hw, h] <;> rfl

/-- Settles O4: each word is the encoding of its beat. -/
theorem wordsOfTheSpecDecode : Obligations.WordsOfTheSpecDecode :=
  ⟨decode_encode (.ami true .one), decode_encode (.dman false .zero), decode_encode (.nrzl false .one),
    decode_encode (.nrzi false .one), decode_encode (.pt false .zero), decode_encode (.man false .zero),
    decode_of_reserved (.inl rfl)⟩

end

section
/-! The rows of the opcode table: a row holds the code of its scheme under the mask of the scheme field
(30_encoding.md R66). -/

namespace Sys2Proof
namespace Machine

/-- The mask 0x0E keeps the scheme field and nothing else. -/
theorem masked_eq_iff (w : BeatWord) (c : SchemeCode) : w &&& 0x0E#5 = 0#1 ++ c ++ 0#1 ↔ wordScheme w = c := by
  revert w c; decide

theorem masked_reserved_iff (w : BeatWord) :
    (w &&& 0x0E#5 = 0x0C#5 ∨ w &&& 0x0E#5 = 0x0E#5) ↔ wordScheme w = 0b110#3 ∨ wordScheme w = 0b111#3 :=
  or_congr (masked_eq_iff w 0b110#3) (masked_eq_iff w 0b111#3)

theorem opcodeTable_row {r : OpcodeRow} (h : r ∈ opcodeTable) :
    r.mask = 0x0E#5 ∧ r.pattern = 0#1 ++ schemeCode r.scheme ++ 0#1 := by
  revert r; decide

theorem exists_row_of_scheme (sc : Scheme) : ∃ r ∈ opcodeTable, r.scheme = sc := by cases sc <;> decide

theorem matchesWord_iff_masked (r : OpcodeRow) (w : BeatWord) : r.matchesWord w = true ↔ w &&& r.mask = r.pattern :=
  beq_iff_eq

/-- A word matches a row when its scheme field holds the code of the row's scheme. -/
theorem matchesWord_iff {r : OpcodeRow} (h : r ∈ opcodeTable) (w : BeatWord) :
    r.matchesWord w = true ↔ wordScheme w = schemeCode r.scheme := by
  obtain ⟨hmask, hpattern⟩ := opcodeTable_row h
  rw [matchesWord_iff_masked, hmask, hpattern, masked_eq_iff]

/-- The words that match no row are those with a reserved code. -/
theorem matches_no_row_iff (w : BeatWord) :
    (∀ r ∈ opcodeTable, r.matchesWord w = false) ↔ wordScheme w = 0b110#3 ∨ wordScheme w = 0b111#3 := by
  constructor
  · intro hno
    refine (schemeCode_or_reserved (wordScheme w)).resolve_left fun ⟨sc, h⟩ => ?_
    obtain ⟨r, hr, rfl⟩ := exists_row_of_scheme sc
    exact Bool.false_ne_true ((hno r hr).symm.trans ((matchesWord_iff hr w).mpr h))
  · intro hres r hr
    refine Bool.eq_false_iff.mpr fun hm => schemeCode_not_reserved r.scheme ?_
    exact (matchesWord_iff hr w).mp hm ▸ hres

end Machine
end Sys2Proof

open Sys2Proof.Machine

/-- Settles O3: matching a row, matching none and decoding are each a condition on the scheme field. -/
theorem opcodeTableDecidesTheScheme : Obligations.OpcodeTableDecidesTheScheme := by
  refine ⟨rfl, fun r hr w => ⟨(matchesWord_iff_masked r w).symm, ?_⟩, fun w => ⟨?_, ?_⟩⟩
  · rw [← matchesWord_iff_masked]
    exact (matchesWord_iff hr w).trans decode_eq_beatOf_iff.symm
  · exact (masked_reserved_iff w).trans decode_eq_reject_iff.symm
  · exact (masked_reserved_iff w).trans (matches_no_row_iff w).symm

end

section
/-! The level codes and their reading (30_encoding.md R59). -/

namespace Sys2Proof
namespace Machine

/-- Every code but 10 is some level's. -/
theorem levelCode_or_undriven (c : LevelCode) : (∃ l, c = levelCode l) ∨ c = 0b10#2 := by
  match c with
  | 0b00#2 => exact .inl ⟨.zero, rfl⟩
  | 0b01#2 => exact .inl ⟨.high, rfl⟩
  | 0b10#2 => exact .inr rfl
  | 0b11#2 => exact .inl ⟨.low, rfl⟩

/-- After the first reset a reading gives a level exactly on that level's code. -/
theorem readLevelCode_reset_iff (free : Level) (c : LevelCode) (l : Level) :
    readLevelCode true free c = .ok l ↔ levelCode l = c := by
  refine ⟨fun h => ?_, fun h => h ▸ readLevelCode_levelCode true free l⟩
  rcases levelCode_or_undriven c with ⟨l', rfl⟩ | rfl
  · rw [readLevelCode_levelCode] at h
    rw [Except.ok.inj h]
  · cases h

end Machine
end Sys2Proof

open Sys2Proof.Machine

/-- Settles O5: three of the four codes are levels', and 10 is none's. -/
theorem levelCodesAreTwosComplement : Obligations.LevelCodesAreTwosComplement := by
  refine ⟨rfl, rfl, rfl, fun l => ?_, readLevelCode_reset_iff, readLevelCode_levelCode, fun free => ⟨rfl, rfl⟩⟩
  cases l <;> rfl

end

section
/-! What a consumer can sample after any step: a stage an edge has loaded, which is legal, or what power-up left, which
no reading faults on (93_implementation_defined.md X1, X3, X4). -/

namespace Sys2Proof
namespace Machine

/-- Whatever stood on the ports before a step, they are legal after it once reset has been applied. -/
theorem step_legalOnceReset {s t : State} (h : step s = .next t) : LegalOnceReset t := by
  intro hreset
  obtain ⟨p, -, rfl⟩ | ⟨rest, -, rfl⟩ := step_cases h
  · exact afterEdge_legal p _
  · simp at hreset

/-- A reading faults on code 10 after the first reset only. -/
theorem readLevelCode_completes {r : Bool} {c : LevelCode} (h : r = true → c ≠ 0b10#2) (free : Level) :
    ∃ l, readLevelCode r free c = .ok l := by
  cases r with
  | false => exact readLevelCode_unreset free c
  | true =>
    obtain ⟨l, rfl⟩ := (levelCode_or_undriven c).resolve_right (h rfl)
    exact ⟨l, readLevelCode_levelCode true free l⟩

theorem lvl0_ne_undriven_of_legal {o : OutStage} (h : o.legal = true) : o.outLvl0 ≠ 0b10#2 := by
  obtain ⟨hvalid, hinvalid, -⟩ := (OutStage.legal_iff o).mp h
  cases hv : o.outValid with
  | true => exact (hvalid hv).2.1
  | false => simp [(hinvalid hv).2.2]

theorem lvl1_ne_undriven_of_legal {o : OutStage} (h : o.legal = true) : o.outLvl1 ≠ 0b10#2 := by
  obtain ⟨-, -, hpair, hsingle, -⟩ := (OutStage.legal_iff o).mp h
  cases hp : o.outPair with
  | true => rcases hpair hp with e | e <;> simp [e]
  | false => simp [hsingle hp]

theorem errCode_driven_of_legal {o : OutStage} (h : o.legal = true) : ¬(o.errCode = 0b10#2 ∨ o.errCode = 0b11#2) := by
  obtain ⟨-, -, -, -, herr, hnoerr⟩ := (OutStage.legal_iff o).mp h
  cases he : o.errValid with
  | true => simp [herr he]
  | false => simp [hnoerr he]

theorem readLevels_completes {s : State} (h : LegalOnceReset s) : ∃ xs, readLevels s = .ok xs := by
  obtain ⟨a, ha⟩ : ∃ a, readLvl0 s = .ok a := readLevelCode_completes (fun hr => lvl0_ne_undriven_of_legal (h hr)) _
  obtain ⟨b, hb⟩ : ∃ b, readLvl1 s = .ok b := readLevelCode_completes (fun hr => lvl1_ne_undriven_of_legal (h hr)) _
  cases hp : s.out.outPair <;> simp [readLevels, ha, hb, hp]

theorem sampleStage_completes {s : State} (h : LegalOnceReset s) : ∃ r, sampleStage s = .ok r := by
  have hcode : ¬(s.wasReset = true ∧ (s.out.errCode = 0b10#2 ∨ s.out.errCode = 0b11#2)) :=
    fun ⟨hr, he⟩ => errCode_driven_of_legal (h hr) he
  obtain ⟨xs, hxs⟩ := readLevels_completes h
  cases hv : s.out.outValid <;> simp only [sampleStage, hcode, hv, hxs] <;> exact ⟨_, rfl⟩

theorem levelsFor_completes (sc : Scheme) {s : State} (h : LegalOnceReset s) : ∃ xs, levelsFor sc s = .ok xs := by
  obtain ⟨⟨levels, error⟩, hr⟩ := sampleStage_completes h
  match levels with
  | none => exact ⟨[], by simp only [levelsFor, hr]⟩
  | some (code, xs) =>
    by_cases hc : code = schemeCode sc
    · exact ⟨xs, by simp only [levelsFor, hr, if_pos hc]⟩
    · exact ⟨[], by simp only [levelsFor, hr, if_neg hc]⟩

theorem collectLevels_cons {sc : Scheme} {t : State} {ts : List State} {xs ys : List Level}
    (h : levelsFor sc t = .ok xs) (h' : collectLevels sc ts = .ok ys) :
    collectLevels sc (t :: ts) = .ok (xs ++ ys) := by
  simp only [collectLevels, h, h']

theorem runCycles_succ {s t : State} (h : step s = .next t) (n : Nat) :
    runCycles (n + 1) s = t :: runCycles n t := by
  simp only [runCycles, h]

@[simp] theorem runCycles_length (n : Nat) (s : State) : (runCycles n s).length = n := by
  induction n generalizing s with
  | zero => rfl
  | succ n ih =>
    obtain ⟨t, ht⟩ := step_completes s
    rw [runCycles_succ ht, List.length_cons, ih]

end Machine
end Sys2Proof

open Sys2Proof.Machine

/-- Settles O55, by induction on the number of steps: each step completes and leaves a stage that can be sampled. -/
theorem edgesAreSafeForConsumers : Obligations.EdgesAreSafeForConsumers := by
  intro s n
  induction n generalizing s with
  | zero => exact ⟨⟨s, rfl⟩, fun _ => ⟨[], rfl⟩⟩
  | succ n ih =>
    obtain ⟨t, ht⟩ := step_completes s
    obtain ⟨hruns, hreads⟩ := ih t
    refine ⟨by rwa [runSteps_succ ht], fun sc => ?_⟩
    obtain ⟨xs, hxs⟩ := levelsFor_completes sc (step_legalOnceReset ht)
    obtain ⟨ys, hys⟩ := hreads sc
    exact ⟨xs ++ ys, by rw [runCycles_succ ht, collectLevels_cons hxs hys]⟩

end

section
/-! A run presented without gaps: every cycle shows a result of its scheme, and the levels are those of the marked beats
from the held polarity, which the first mark sets to +1 (40_beat.md R82, R88). -/

namespace Sys2Proof
namespace Machine

/-- The state holds `p` as the polarity of scheme `sc`; a scheme without a register holds every polarity. -/
def HoldsPol (sc : Scheme) (p : Pol) (s : State) : Prop := ∀ c, carrierOf sc = some c → readPol c s = p

theorem exists_holdsPol (sc : Scheme) (s : State) : ∃ p, HoldsPol sc p s := by
  cases hc : carrierOf sc with
  | none => exact ⟨.plus, fun c h => absurd (hc.symm.trans h) (by simp)⟩
  | some c => exact ⟨readPol c s, fun d h => by rw [Option.some.inj (hc.symm.trans h)]⟩

/-- The emission of a scheme without state is a function of the bit. -/
theorem schemeRule_stateless {sc : Scheme} (h : carrierOf sc = none) (p q : Pol) (b : Bit) :
    (schemeRule sc p b).2 = (schemeRule sc q b).2 := by
  cases sc with
  | nrzl | man => rfl
  | nrzi | ami | pt | dman => cases h

/-- A beat emits its scheme's rule on the incoming polarity and leaves the outgoing one held. -/
theorem exec_beatOf {sc : Scheme} {p : Pol} {s : State} (hp : HoldsPol sc p s) (f : Bool) (b : Bit) :
    ∃ t, exec (beatOf sc f b) s = .next t ∧ t.out = stageEmitted sc (schemeRule sc (incoming f p) b).2 ∧
      HoldsPol sc (schemeRule sc (incoming f p) b).1 t := by
  cases hc : carrierOf sc with
  | none =>
    refine ⟨_, exec_stateless (by rwa [beatOf_scheme]) s, ?_, fun c h => absurd (hc.symm.trans h) (by simp)⟩
    rw [beatOf_scheme, beatOf_bit, schemeRule_stateless hc .plus (incoming f p)]
    rfl
  | some c =>
    refine ⟨_, exec_carried (c := c) (by rwa [beatOf_scheme]) s, ?_, fun d h => ?_⟩
    · rw [beatOf_scheme, beatOf_first, beatOf_bit, hp c hc, finishCarried_spec, carrierScheme_of_carrierOf hc]
    · obtain rfl := Option.some.inj (hc.symm.trans h)
      rw [readPol_finishCarried_same, beatOf_scheme, beatOf_first, beatOf_bit, hp c hc]

/-- The edge that presents a beat of `sc`. -/
def beatEvent (sc : Scheme) (x : Bool × Bit) : HostEvent := .edge (beatInputs (encode (beatOf sc x.1 x.2)))

theorem runEvents_eq (sc : Scheme) (bs : List Bit) : runEvents sc bs = (markRun bs).map (beatEvent sc) := by
  simp only [runEvents, runInstrs, List.map_map]; rfl

@[simp] theorem runEvents_length (sc : Scheme) (bs : List Bit) : (runEvents sc bs).length = bs.length := by
  rw [runEvents_eq, List.length_map, markRun_length]

theorem step_beatEvent {sc : Scheme} {x : Bool × Bit} {s : State} {rest : List HostEvent}
    (h : s.host = beatEvent sc x :: rest) : step s = exec (beatOf sc x.1 x.2) { s with host := rest } := by
  rw [step_edge h, clockEdge_accept rfl rfl]
  exact acceptWord_beat (decode_encode _) _

/-- A cycle whose stage shows a result of `sc`. -/
def ShowsBeat (sc : Scheme) (t : State) : Prop := ∃ xs, t.out = stageEmitted sc xs

theorem countBeats_of_showsBeat {sc : Scheme} {ts : List State} (h : ∀ t ∈ ts, ShowsBeat sc t) :
    countBeats sc ts = ts.length := by
  refine List.countP_eq_length.mpr fun t ht => ?_
  obtain ⟨xs, hout⟩ := h t ht
  simp [hout, stageEmitted]

/-- Beats of one scheme presented without gaps, by induction on the beats: a result in each cycle, and the levels of the
marked fold from the held polarity. -/
theorem runCycles_beatEvents {sc : Scheme} (xs : List (Bool × Bit)) {p : Pol} {s : State} (hp : HoldsPol sc p s)
    (hs : s.host = xs.map (beatEvent sc)) :
    (∀ t ∈ runCycles xs.length s, ShowsBeat sc t) ∧
      collectLevels sc (runCycles xs.length s) = .ok (markedLevels sc p xs) := by
  induction xs generalizing p s with
  | nil => exact ⟨by simp [runCycles], rfl⟩
  | cons x xs ih =>
    obtain ⟨t, hexec, hout, hp'⟩ := exec_beatOf (s := { s with host := xs.map (beatEvent sc) }) hp x.1 x.2
    have hstep : step s = .next t := (step_beatEvent hs).trans hexec
    obtain ⟨hshows, hlevels⟩ := ih hp' (exec_frame hexec).1
    rw [List.length_cons, runCycles_succ hstep]
    refine ⟨List.forall_mem_cons.mpr ⟨⟨_, hout⟩, hshows⟩, ?_⟩
    rw [collectLevels_cons (levelsFor_of_emitted sc hout) hlevels, if_pos rfl]
    rfl

/-- The marked fold of a run is `encode(s, bs)`, whatever polarity is held. -/
theorem markedLevels_markRun (sc : Scheme) (p : Pol) (bs : List Bit) :
    markedLevels sc p (markRun bs) = refEncode sc bs := by
  cases bs with
  | nil => rfl
  | cons b bs => simp only [markRun, markedLevels, markedLevels_unmarked, incoming_true, refEncode, refGo]

theorem serveRequest_valid {q : HostRequest} {sc : Scheme} {bs : List Bit} (hsc : selectScheme q.identifier = .ok sc)
    (hbs : parseBits q.text = .ok bs) (order : HostErrorOrder) (s : State) :
    serveRequest order q s = { s with host := s.host ++ runEvents sc bs } := by
  simp only [serveRequest, hostRequest, hsc, hbs]

end Machine
end Sys2Proof

open Sys2Proof.Machine

/-- Settles O54: an idle host serves a valid request by presenting the marked run and nothing else. -/
theorem servedRequestYieldsTheEncoding : Obligations.ServedRequestYieldsTheEncoding := by
  intro order q sc bs s hidle hsc hbs
  rw [serveRequest_valid hsc hbs, hidle, List.nil_append]
  obtain ⟨p, hp⟩ := exists_holdsPol sc { s with host := runEvents sc bs }
  obtain ⟨hshows, hlevels⟩ := runCycles_beatEvents (markRun bs) hp (runEvents_eq sc bs)
  rw [markRun_length] at hshows hlevels
  refine ⟨runEvents_length sc bs, ?_, fun t ht => ?_, hlevels.trans (congrArg _ (markedLevels_markRun sc p bs))⟩
  · rw [countBeats_of_showsBeat hshows, runCycles_length]
  · obtain ⟨xs, hout⟩ := hshows t ht
    exact hout ▸ ⟨rfl, rfl⟩

end

section
/-! Assembly text: each reader of a part of a line undoes its writer, and the first characters of a line tell its kind
(30_encoding.md R64, R65). -/

namespace Sys2Proof
namespace Machine

@[simp] theorem bitOfChar_charOfBit (b : Bit) : bitOfChar (charOfBit b) = some b := by cases b <;> rfl

@[simp] theorem parseBits_map_charOfBit (bs : List Bit) : parseBits (bs.map charOfBit) = .ok bs := by
  induction bs with
  | nil => rfl
  | cons b bs ih => simp only [List.map_cons, parseBits, bitOfChar_charOfBit, ih]

@[simp] theorem afterPrefix_append (p cs : List Char) : afterPrefix p (p ++ cs) = some cs := by
  induction p with
  | nil => rfl
  | cons c p ih => rw [List.cons_append, afterPrefix, if_pos rfl, ih]

/-- No mnemonic begins another, so the one that begins a text is the one that was written. -/
@[simp] theorem takeMnemonic_append (sc : Scheme) (cs : List Char) :
    takeMnemonic (mnemonicOf sc ++ cs) = some (sc, cs) := by
  cases sc <;> rfl

/-- The bit on a wire of a word. -/
def bitOfWire (b : Bool) : Bit := if b then .one else .zero

theorem charOfWire_eq (b : Bool) : charOfWire b = charOfBit (bitOfWire b) := by cases b <;> rfl

/-- A word is its five wires, highest first. -/
theorem wires_append (w : BeatWord) :
    bitWire (bitOfWire (w.getLsbD 4)) ++ bitWire (bitOfWire (w.getLsbD 3)) ++ bitWire (bitOfWire (w.getLsbD 2)) ++
      bitWire (bitOfWire (w.getLsbD 1)) ++ bitWire (bitOfWire (w.getLsbD 0)) = w := by
  revert w; decide

theorem parseRaw_wires (w : BeatWord) :
    parseRaw [charOfWire (w.getLsbD 4), charOfWire (w.getLsbD 3), charOfWire (w.getLsbD 2),
      charOfWire (w.getLsbD 1), charOfWire (w.getLsbD 0)] = some w := by
  have hbits := parseBits_map_charOfBit [bitOfWire (w.getLsbD 4), bitOfWire (w.getLsbD 3), bitOfWire (w.getLsbD 2),
    bitOfWire (w.getLsbD 1), bitOfWire (w.getLsbD 0)]
  simp only [List.map_cons, List.map_nil, ← charOfWire_eq] at hbits
  simp only [parseRaw, hbits, wires_append]

theorem parseQuoted_map_charOfBit (bs : List Bit) :
    parseQuoted (bs.map charOfBit ++ [quoteChar]) = some bs := by
  simp [parseQuoted]

theorem parseOperands_render (f : Bool) (b : Bit) :
    parseOperands ((if f then firstSuffix else []) ++ [' ', charOfBit b]) = some (f, b) := by
  cases f <;> cases b <;> rfl

/-- A text that begins with a mnemonic is no line of another kind, which begins with another character. -/
theorem mnemonic_begins_no_other_line (sc : Scheme) (cs : List Char) :
    mnemonicOf sc ++ cs ≠ idleText ∧ mnemonicOf sc ++ cs ≠ resetText ∧
      afterPrefix rawPrefix (mnemonicOf sc ++ cs) = none ∧ afterPrefix encodePrefix (mnemonicOf sc ++ cs) = none := by
  cases sc <;> exact ⟨by simp [mnemonicOf, idleText], by simp [mnemonicOf, resetText], rfl, rfl⟩

theorem parseLine_beat (sc : Scheme) (cs : List Char) :
    parseLine (mnemonicOf sc ++ cs) = (parseOperands cs).map (fun x => .beat sc x.1 x.2) := by
  obtain ⟨hidle, hreset, hraw, hencode⟩ := mnemonic_begins_no_other_line sc cs
  simp only [parseLine, if_neg hidle, if_neg hreset, hraw, hencode, takeMnemonic_append]

theorem parseLine_raw (cs : List Char) : parseLine (rawPrefix ++ cs) = (parseRaw cs).map .raw := by
  have hidle : rawPrefix ++ cs ≠ idleText := by simp [rawPrefix, idleText]
  have hreset : rawPrefix ++ cs ≠ resetText := by simp [rawPrefix, resetText]
  simp only [parseLine, if_neg hidle, if_neg hreset, afterPrefix_append]

theorem encodePrefix_begins_no_other_line (cs : List Char) :
    encodePrefix ++ cs ≠ idleText ∧ encodePrefix ++ cs ≠ resetText ∧
      afterPrefix rawPrefix (encodePrefix ++ cs) = none :=
  ⟨by simp [encodePrefix, idleText], by simp [encodePrefix, resetText], rfl⟩

theorem parseLine_encode (sc : Scheme) (cs : List Char) :
    parseLine (encodePrefix ++ (mnemonicOf sc ++ ([',', ' ', quoteChar] ++ cs))) =
      (parseQuoted cs).map (.encode sc) := by
  obtain ⟨hidle, hreset, hraw⟩ := encodePrefix_begins_no_other_line (mnemonicOf sc ++ ([',', ' ', quoteChar] ++ cs))
  simp only [parseLine, if_neg hidle, if_neg hreset, hraw, afterPrefix_append, takeMnemonic_append]

/-- Reading a line's text gives the line back, kind by kind. -/
theorem parseLine_renderLine (l : AsmLine) : parseLine (renderLine l) = some l := by
  cases l with
  | beat sc f b => rw [renderLine, List.append_assoc, parseLine_beat, parseOperands_render, Option.map_some]
  | raw w => rw [renderLine, parseLine_raw, parseRaw_wires, Option.map_some]
  | encode sc bs =>
    simp only [renderLine, List.append_assoc, parseLine_encode, parseQuoted_map_charOfBit, Option.map_some]
  | idle => rfl
  | reset => rfl

end Machine
end Sys2Proof

open Sys2Proof.Machine

/-- Settles O6. -/
theorem assemblyTextRoundTrips : Obligations.AssemblyTextRoundTrips :=
  ⟨parseLine_renderLine, runEvents_length, rfl, rfl⟩

end

section
/-! A window of edges without reset or loss of power, read by the consumer of one scheme: only that scheme's own beats
emit for it and write its register, so the window is the marked fold of the beats it accepts (40_beat.md R81, R88). -/

namespace Sys2Proof
namespace Machine

theorem markedLevels_append (sc : Scheme) (p : Pol) (xs ys : List (Bool × Bit)) :
    markedLevels sc p (xs ++ ys) = markedLevels sc p xs ++ markedLevels sc (markedFinal sc p xs) ys := by
  induction xs generalizing p with
  | nil => rfl
  | cons x xs ih => simp only [List.cons_append, markedLevels, markedFinal, ih, List.append_assoc]

theorem markedFinal_append (sc : Scheme) (p : Pol) (xs ys : List (Bool × Bit)) :
    markedFinal sc p (xs ++ ys) = markedFinal sc (markedFinal sc p xs) ys := by
  induction xs generalizing p with
  | nil => rfl
  | cons x xs ih => simp only [List.cons_append, markedFinal, ih]

theorem acceptedBeats_cons (sc : Scheme) (e : HostEvent) (evs : List HostEvent) :
    acceptedBeats sc (e :: evs) = (acceptedBeat sc e).toList ++ acceptedBeats sc evs := by
  cases h : acceptedBeat sc e <;> simp [acceptedBeats, h]

/-- At an edge without a word no scheme accepts a beat. -/
theorem acceptedBeat_idle (sc : Scheme) {p : Inputs} (hv : p.inValid = false) : acceptedBeat sc (.edge p) = none := by
  simp [acceptedBeat, hv]

theorem acceptedBeat_reject (sc : Scheme) {p : Inputs} {code : SchemeCode}
    (hd : decode p.inWord = .rejectUnknownScheme code) : acceptedBeat sc (.edge p) = none := by
  simp [acceptedBeat, hd]

theorem acceptedBeat_other {sc : Scheme} {p : Inputs} {i : Instr} (hd : decode p.inWord = .beat i)
    (hne : i.scheme ≠ sc) : acceptedBeat sc (.edge p) = none := by
  simp [acceptedBeat, hd, hne]

theorem acceptedBeat_own {p : Inputs} {i : Instr} (hr : p.rst = false) (hv : p.inValid = true)
    (hd : decode p.inWord = .beat i) : acceptedBeat i.scheme (.edge p) = some (i.first, i.bit) := by
  simp [acceptedBeat, hr, hv, hd]

/-- A beat of another scheme emits nothing for `sc` and keeps the polarity of `sc`. -/
theorem exec_other {sc : Scheme} {p : Pol} {i : Instr} {s t : State} (h : exec i s = .next t) (hne : i.scheme ≠ sc)
    (hp : HoldsPol sc p s) : levelsFor sc t = .ok [] ∧ HoldsPol sc p t := by
  obtain ⟨q, hout⟩ := exec_out h
  refine ⟨by rw [levelsFor_of_emitted sc hout, if_neg hne], fun c hc => ?_⟩
  have hown : carrierScheme c = sc := carrierScheme_of_carrierOf hc
  rw [readPol_exec_other h (hown ▸ hne.symm), hp c hc]

/-- What an edge without reset does for `sc`: the marked fold over the beat of `sc` it accepts, if it accepts one. -/
theorem clockEdge_calm {sc : Scheme} {q : Pol} {p : Inputs} {s : State} (hr : p.rst = false) (hq : HoldsPol sc q s) :
    ∃ t, clockEdge p s = .next t ∧ t.host = s.host ∧
      levelsFor sc t = .ok (markedLevels sc q (acceptedBeat sc (.edge p)).toList) ∧
      HoldsPol sc (markedFinal sc q (acceptedBeat sc (.edge p)).toList) t := by
  cases hv : p.inValid with
  | false =>
    rw [acceptedBeat_idle sc hv]
    exact ⟨_, clockEdge_idle hr hv s, rfl, levelsFor_of_zero sc rfl, hq⟩
  | true =>
    rw [clockEdge_accept hr hv]
    cases hd : decode p.inWord with
    | rejectUnknownScheme code =>
      rw [acceptedBeat_reject sc hd]
      exact ⟨_, acceptWord_reject hd s, rfl, levelsFor_of_rejected sc rfl, hq⟩
    | beat i =>
      rw [acceptWord_beat hd]
      by_cases hsc : i.scheme = sc
      · subst hsc
        obtain ⟨t, hexec, hout, hq'⟩ := exec_beatOf hq i.first i.bit
        rw [beatOf_fields] at hexec
        rw [acceptedBeat_own hr hv hd]
        refine ⟨t, hexec, (exec_frame hexec).1, ?_, hq'⟩
        rw [levelsFor_of_emitted _ hout, if_pos rfl]
        simp only [Option.toList, markedLevels, List.append_nil]
      · obtain ⟨t, hexec⟩ := exec_completes i s
        rw [acceptedBeat_other hd hsc]
        exact ⟨t, hexec, (exec_frame hexec).1, exec_other hexec hsc hq⟩

theorem step_calm {sc : Scheme} {q : Pol} {e : HostEvent} {s : State} {rest : List HostEvent}
    (hs : s.host = e :: rest) (he : calmEvent e = true) (hq : HoldsPol sc q s) :
    ∃ t, step s = .next t ∧ t.host = rest ∧ levelsFor sc t = .ok (markedLevels sc q (acceptedBeat sc e).toList) ∧
      HoldsPol sc (markedFinal sc q (acceptedBeat sc e).toList) t := by
  cases e with
  | powerLoss => cases he
  | edge p =>
    rw [step_edge hs]
    exact clockEdge_calm (s := { s with host := rest }) (by simpa [calmEvent] using he) hq

/-- The events `evs`, which are next, taken one by one: by induction on them. -/
theorem run_calmEvents {sc : Scheme} {q : Pol} {s : State} {evs rest : List HostEvent} (hs : s.host = evs ++ rest)
    (hcalm : evs.all calmEvent = true) (hq : HoldsPol sc q s) :
    ∃ t, runSteps evs.length s = .next t ∧ t.host = rest ∧
      collectLevels sc (runCycles evs.length s) = .ok (markedLevels sc q (acceptedBeats sc evs)) ∧
      HoldsPol sc (markedFinal sc q (acceptedBeats sc evs)) t := by
  induction evs generalizing q s with
  | nil => exact ⟨s, rfl, hs, rfl, hq⟩
  | cons e evs ih =>
    obtain ⟨he, hevs⟩ := Bool.and_eq_true_iff.mp hcalm
    obtain ⟨u, hstep, hhost, hlevels, hu⟩ := step_calm hs he hq
    obtain ⟨t, hruns, hrest, hreads, ht⟩ := ih hhost hevs hu
    rw [List.length_cons, runSteps_succ hstep, runCycles_succ hstep, acceptedBeats_cons, markedLevels_append,
      markedFinal_append]
    exact ⟨t, hruns, hrest, collectLevels_cons hlevels hreads, ht⟩

/-- What a window of edges without reset or loss of power does for a scheme, from the polarity it holds. -/
theorem run_calmWindow {sc : Scheme} {q : Pol} {s : State} {n : Nat} (hw : CalmWindow s n) (hq : HoldsPol sc q s) :
    ∃ t, runSteps n s = .next t ∧ t.host = s.host.drop n ∧
      collectLevels sc (runCycles n s) = .ok (markedLevels sc q (acceptedBeats sc (s.host.take n))) ∧
      HoldsPol sc (markedFinal sc q (acceptedBeats sc (s.host.take n))) t := by
  obtain ⟨hlen, hcalm⟩ := hw
  have hrun := run_calmEvents (List.take_append_drop n s.host).symm hcalm hq
  rwa [List.length_take_of_le hlen] at hrun

theorem collectLevels_calmWindow {sc : Scheme} {q : Pol} {s : State} {n : Nat} (hw : CalmWindow s n)
    (hq : HoldsPol sc q s) :
    collectLevels sc (runCycles n s) = .ok (markedLevels sc q (acceptedBeats sc (s.host.take n))) := by
  obtain ⟨_, -, -, hreads, -⟩ := run_calmWindow hw hq
  exact hreads

end Machine
end Sys2Proof

open Sys2Proof.Machine

/-- Settles O36: the window is the marked fold from any polarity the scheme holds, and the register's value is one. -/
theorem markedBeatsEmitTheMarkedFold : Obligations.MarkedBeatsEmitTheMarkedFold := by
  intro sc s n hw
  exact collectLevels_calmWindow hw fun c hc => by simp only [hc]

end

section
/-! Windows that hold a run, or beats that all have F = 0: their marked fold is the reference's (40_beat.md R87, R88,
R92). -/

namespace Sys2Proof
namespace Machine

/-- A run leaves the reference's last polarity, and an empty run the one it found. -/
theorem markedFinal_markRun (sc : Scheme) (p : Pol) (bs : List Bit) :
    markedFinal sc p (markRun bs) = if bs = [] then p else refFinal sc .plus bs := by
  cases bs with
  | nil => rfl
  | cons b bs => simp [markRun, markedFinal, markedFinal_unmarked, refFinal]

/-- What the window of a run does for its scheme, from the polarity it holds. -/
theorem run_runWindow {sc : Scheme} {bs : List Bit} {q : Pol} {s : State} {n : Nat} (hw : RunWindow sc bs s n)
    (hq : HoldsPol sc q s) :
    ∃ t, runSteps n s = .next t ∧ t.host = s.host.drop n ∧
      collectLevels sc (runCycles n s) = .ok (refEncode sc bs) ∧
      HoldsPol sc (if bs = [] then q else refFinal sc .plus bs) t := by
  obtain ⟨hcalm, hbeats⟩ := hw
  have hrun := run_calmWindow hcalm hq
  rwa [hbeats, markedLevels_markRun, markedFinal_markRun] at hrun

/-- Whatever polarity is held, a consumer reads `encode(s, bs)` off a run. -/
theorem collectLevels_runWindow {sc : Scheme} {bs : List Bit} {s : State} {n : Nat} (hw : RunWindow sc bs s n) :
    collectLevels sc (runCycles n s) = .ok (refEncode sc bs) := by
  obtain ⟨_, hq⟩ := exists_holdsPol sc s
  obtain ⟨_, -, -, hreads, -⟩ := run_runWindow hw hq
  exact hreads

/-- Beats that all have F = 0 emit the reference's levels from the polarity held. -/
theorem collectLevels_unmarkedWindow {sc : Scheme} {bs : List Bit} {q : Pol} {s : State} {n : Nat}
    (hw : UnmarkedWindow sc bs s n) (hq : HoldsPol sc q s) :
    collectLevels sc (runCycles n s) = .ok (refGo sc q bs) := by
  obtain ⟨hcalm, hbeats⟩ := hw
  rw [collectLevels_calmWindow hcalm hq, hbeats, markedLevels_unmarked]

theorem holdsPol_plus_of_allPlus (sc : Scheme) {s : State} (h : s.pol = .allPlus) : HoldsPol sc .plus s :=
  fun c _ => (congrArg (Polarities.get · c) h).trans (get_allPlus c)

end Machine
end Sys2Proof

open Sys2Proof.Machine

/-- Settles O34: the first mark sets the incoming polarity to +1, whatever is held, and no other event of the window
emits for the scheme or writes its register. -/
theorem runEmissionsEqualReference : Obligations.RunEmissionsEqualReference :=
  fun _ _ _ _ => collectLevels_runWindow

/-- Settles O35. -/
theorem runLeavesReferencePolarity : Obligations.RunLeavesReferencePolarity := by
  intro sc c bs s n hc hw
  have hheld : HoldsPol sc (readPol c s) s := fun d hd => by rw [Option.some.inj (hd.symm.trans hc)]
  obtain ⟨t, hruns, hhost, -, ht⟩ := run_runWindow hw hheld
  exact ⟨t, hruns, hhost, ht c hc⟩

/-- Settles O37: the second window starts from the polarity the run left, and after reset that is +1. -/
theorem unmarkedBeatsContinueTheRun : Obligations.UnmarkedBeatsContinueTheRun := by
  refine ⟨fun sc b bs1 bs2 s t n m hrun hsteps hrest => ?_, fun sc bs s n hplus hw => ?_⟩
  · obtain ⟨q, hq⟩ := exists_holdsPol sc s
    obtain ⟨u, hsteps', -, hfirst, hu⟩ := run_runWindow hrun hq
    obtain rfl : u = t := Host.Outcome.next.inj (hsteps'.symm.trans hsteps)
    rw [if_neg (List.cons_ne_nil b bs1)] at hu
    rw [runCycles_add n m hsteps, refEncode, refGo_append]
    exact collectLevels_append sc _ _ hfirst (collectLevels_unmarkedWindow hrest hu)
  · exact collectLevels_unmarkedWindow hw (holdsPol_plus_of_allPlus sc hplus)

/-- Settles O38: both runs emit the reference's levels. -/
theorem equalRunsEmitEqualLevels : Obligations.EqualRunsEmitEqualLevels :=
  fun sc bs _ _ _ _ hw hw' => ⟨refEncode sc bs, collectLevels_runWindow hw, collectLevels_runWindow hw'⟩

end

section
/-! How many levels a beat emits, and what a consumer reads off its stage (40_beat.md R85, R86, R94). -/

namespace Sys2Proof
namespace Machine

theorem emissionLevels_schemeRule_length (sc : Scheme) (p : Pol) (b : Bit) :
    (emissionLevels (schemeRule sc p b).2).length = levelsPerBit sc := by
  cases sc <;> cases b <;> rfl

theorem refGo_length (sc : Scheme) (p : Pol) (bs : List Bit) :
    (refGo sc p bs).length = levelsPerBit sc * bs.length := by
  induction bs generalizing p with
  | nil => rfl
  | cons b bs ih =>
    rw [refGo, List.length_append, emissionLevels_schemeRule_length, ih, List.length_cons, Nat.mul_succ, Nat.add_comm]

/-- The schemes of two levels a bit are the Manchester family. -/
theorem levelsPerBit_eq (sc : Scheme) : levelsPerBit sc = if sc = .man ∨ sc = .dman then 2 else 1 := by
  cases sc <;> rfl

theorem pairFlag_iff_length (xs : Emission) : pairFlag xs = true ↔ (emissionLevels xs).length = 2 := by
  cases xs <;> simp [pairFlag, emissionLevels]

end Machine
end Sys2Proof

open Sys2Proof.Machine

/-- Settles O40. -/
theorem runLengthIsOneOrTwoPerBit : Obligations.RunLengthIsOneOrTwoPerBit :=
  ⟨fun sc bs => refGo_length sc .plus bs, rfl, rfl, rfl, rfl, rfl, rfl, fun _ => ⟨rfl, rfl⟩⟩

/-- Settles O18: the stage holds the levels of the scheme's rule, whose number is the scheme's. -/
theorem beatEmitsOneOrTwoLevels : Obligations.BeatEmitsOneOrTwoLevels := by
  intro i s
  obtain ⟨t, hexec⟩ := exec_completes i s
  obtain ⟨p, hout⟩ := exec_out hexec
  refine ⟨t, _, hexec, readLevels_of_emitted hout, ?_, ?_⟩
  · rw [emissionLevels_schemeRule_length, levelsPerBit_eq]
  · rw [hout]
    exact pairFlag_iff_length _

/-- Settles O19: a beat loads its scheme's code and its rule's emission, with or without a register. -/
theorem consumerReadsWhatTheBeatEmitted : Obligations.ConsumerReadsWhatTheBeatEmitted := by
  intro i s
  cases hc : carrierOf i.scheme with
  | none => exact ⟨_, exec_stateless hc s, sampleStage_of_emitted (congrArg State.out (finishStateless_spec _ _ s))⟩
  | some c =>
    refine ⟨_, exec_carried hc s, sampleStage_of_emitted ?_⟩
    rw [finishCarried_spec, carrierScheme_of_carrierOf hc]

end

section
/-! What the first flag does to a beat and to a rejected word (40_beat.md R82), and the generic form of the stateful
rules (R93). -/

namespace Sys2Proof
namespace Machine

/-- A finished beat leaves nothing of what its register held. -/
@[simp] theorem finishCarried_writePol (c : Carrier) (r : Pol × Emission) (p : Pol) (s : State) :
    finishCarried c r (writePol c p s) = finishCarried c r s := by
  simp only [finishCarried_spec, writePol, set_set_same]

/-- A word with a reserved code loads the error ports, whatever its F and B. -/
theorem acceptWord_reserved {code : SchemeCode} (h : code = 0b110#3 ∨ code = 0b111#3) (f : Bool) (b : Bit)
    (s : State) : acceptWord (packWord f code b) s = .next { s with out := stageRejected } := by
  rw [acceptWord_reject (decode_of_reserved (by rwa [wordScheme_packWord])), rejectBeat_spec]

/-- A beat of a stateful scheme by its scheme, flag and bit. -/
theorem exec_beatOf_carried {sc : Scheme} {c : Carrier} (hc : carrierOf sc = some c) (f : Bool) (b : Bit)
    (s : State) :
    exec (beatOf sc f b) s = .next (finishCarried c (schemeRule sc (incoming f (readPol c s)) b) s) := by
  rw [exec_carried (c := c) (by rwa [beatOf_scheme]), beatOf_scheme, beatOf_first, beatOf_bit]

end Machine
end Sys2Proof

open Sys2Proof.Machine

/-- Settles O13: with F = 1 the rule takes in +1, and the register is overwritten. -/
theorem firstFlagReadsPlusOne : Obligations.FirstFlagReadsPlusOne := by
  refine ⟨fun sc c b p s hc => ⟨?_, ?_⟩, fun b s => ⟨rfl, rfl⟩, fun f b s => ⟨?_, ?_⟩⟩
  · simp only [exec_beatOf_carried hc, incoming_true, finishCarried_writePol]
  · simp only [exec_beatOf_carried hc, incoming_true, incoming_false, readPol_writePol_same, finishCarried_writePol]
  · exact acceptWord_reserved (.inl rfl) f b s
  · exact acceptWord_reserved (.inr rfl) f b s

/-- Settles O20, bit by bit: a mark takes the first action, any other bit the second. -/
theorem statefulRulesAreTheGenericFold : Obligations.StatefulRulesAreTheGenericFold := by
  intro p b
  cases b with
  | zero => exact ⟨rfl, rfl, rfl, rfl⟩
  | one => exact ⟨rfl, rfl, rfl, rfl⟩

end

section
/-! A step on a presented word (40_beat.md R80, R81). -/

namespace Sys2Proof
namespace Machine

/-- A step on an edge whose word decodes to a beat is that beat, with the edge taken off the stream. -/
theorem step_presented {s : State} {p : Inputs} {rest : List HostEvent} {i : Instr} (h : s.host = .edge p :: rest)
    (hr : p.rst = false) (hv : p.inValid = true) (hd : decode p.inWord = .beat i) :
    step s = exec i { s with host := rest } := by
  rw [step_edge h, clockEdge_accept hr hv, acceptWord_beat hd]

theorem decode_of_decodeTableWord {nbits w : Nat} {i : Instr} (h : decodeTableWord nbits w = some i) :
    decode (BitVec.ofNat 5 (w % 2 ^ nbits)) = .beat i := by
  unfold decodeTableWord at h
  split at h
  · next hd => rw [hd, Option.some.inj h]
  · cases h

theorem withFetchWord_host (s : State) (nbits w : Nat) :
    (s.withFetchWord nbits w).host = .edge (beatInputs (BitVec.ofNat 5 (w % 2 ^ nbits))) :: s.host := rfl

end Machine
end Sys2Proof

open Sys2Proof.Machine

/-- Settles O21: a placed table word is the next edge of the host's stream, and its step takes it off again. -/
theorem stepRunsDecodedInstruction : Obligations.StepRunsDecodedInstruction :=
  ⟨fun _ _ _ _ => step_presented, fun s nbits w _ h =>
    step_presented (withFetchWord_host s nbits w) rfl rfl (decode_of_decodeTableWord h)⟩

/-- Settles O22. -/
theorem stepAlwaysAnswersNext : Obligations.StepAlwaysAnswersNext := step_completes

end

section
/-! Facts for every scheme about the beats of a run and the polarity a run carries (30_encoding.md R66; 40_beat.md R82,
R87). -/

namespace Sys2Proof
namespace Machine

/-- A word that matches the row of a scheme decodes to that scheme's beat. -/
theorem decode_of_masked {w : BeatWord} (sc : Scheme) (h : w &&& 0x0E#5 = 0#1 ++ schemeCode sc ++ 0#1) :
    decode w = .beat (beatOf sc (wordFirst w) (wordBit w)) :=
  decode_of_scheme ((masked_eq_iff w (schemeCode sc)).mp h)

theorem incoming_of_first_or_plus {f : Bool} {p : Pol} (h : f = true ∨ p = .plus) : incoming f p = .plus := by
  rcases h with rfl | rfl
  · rfl
  · cases f <;> rfl

theorem levelOf_injective : Function.Injective levelOf := by
  intro p q h
  cases p <;> cases q <;> cases h <;> rfl

/-- The polarity after one more bit is the rule's, from the polarity after the bits before it. -/
theorem refFinal_take_succ (sc : Scheme) (p : Pol) {bs : List Bit} {i : Nat} (h : i < bs.length) :
    refFinal sc p (bs.take (i + 1)) = (schemeRule sc (refFinal sc p (bs.take i)) bs[i]).1 := by
  rw [List.take_succ_eq_append_getElem h, refFinal_append]
  rfl

end Machine
end Sys2Proof

end

section
/-! NRZ-L: a beat is its bit's level, and a run is the levels of its bits (41_nrz.md R100, R102). -/

namespace Sys2Proof
namespace Machine

/-- The level of a bit: +1 for a 1 and -1 for a 0 (41_nrz.md R100). -/
def bitLevel : Bit → Level
  | .one => .high
  | .zero => .low

theorem ruleNrzl_eq (b : Bit) : ruleNrzl b = .single (bitLevel b) := by cases b <;> rfl

theorem bitLevel_eq_high_iff (b : Bit) : bitLevel b = .high ↔ b = .one := by cases b <;> decide

theorem bitLevel_eq_low_iff (b : Bit) : bitLevel b = .low ↔ b = .zero := by cases b <;> decide

theorem exec_nrzl (f : Bool) (b : Bit) (s : State) :
    exec (.nrzl f b) s =
      .next { s with out := ⟨true, 0b000#3, false, levelCode (bitLevel b), 0b00#2, false, 0b00#2⟩ } := by
  rw [exec_stateless rfl, finishStateless_spec]
  cases b <;> rfl

theorem refGo_nrzl (p : Pol) (bs : List Bit) : refGo .nrzl p bs = bs.map bitLevel := by
  induction bs with
  | nil => rfl
  | cons b bs ih => simp only [refGo, schemeRule, ruleNrzl_eq, emissionLevels, ih, List.map_cons, List.singleton_append]

/-- A level stands at a place of a run exactly when the bit there has that level. -/
theorem refEncode_nrzl_getElem?_iff {l : Level} {b : Bit} (h : ∀ x, bitLevel x = l ↔ x = b) (bs : List Bit)
    (i : Nat) : (refEncode .nrzl bs)[i]? = some l ↔ bs[i]? = some b := by
  simp only [refEncode, refGo_nrzl, List.getElem?_map, Option.map_eq_some_iff, h, exists_eq_right]

end Machine
end Sys2Proof

open Sys2Proof.Machine

/-- Settles O41: the run is its bits, each turned into its level. -/
theorem nrzlRunFollowsTheBits : Obligations.NrzlRunFollowsTheBits := by
  refine fun bs => ⟨?_, fun i => ⟨?_, ?_⟩⟩
  · rw [refEncode, refGo_nrzl, List.length_map]
  · exact refEncode_nrzl_getElem?_iff bitLevel_eq_high_iff bs i
  · exact refEncode_nrzl_getElem?_iff bitLevel_eq_low_iff bs i

/-- Settles O7. -/
theorem nrzlEmitsTheBitLevel : Obligations.NrzlEmitsTheBitLevel :=
  ⟨fun f s => ⟨exec_nrzl f .one s, exec_nrzl f .zero s⟩, fun _ hw => decode_of_masked .nrzl hw,
    decode_encode (.nrzl false .one)⟩

end

section
/-! NRZ-I: the level of a bit is the polarity it leaves, which only a 1-bit toggles (41_nrz.md R101, R103, R104). -/

namespace Sys2Proof
namespace Machine

/-- What an NRZ-I bit emits is the polarity it leaves. -/
theorem ruleNrzi_emission (p : Pol) (b : Bit) : (ruleNrzi p b).2 = .single (levelOf (ruleNrzi p b).1) := by
  cases b <;> rfl

theorem ruleNrzi_holds_iff (p : Pol) (b : Bit) : (ruleNrzi p b).1 = p ↔ b = .zero := by
  cases p <;> cases b <;> decide

/-- An NRZ-I beat by the polarity it leaves. -/
theorem exec_nrzi {f : Bool} {b : Bit} {s : State} {q : Pol} (h : (ruleNrzi (incoming f s.pol.nrzi) b).1 = q) :
    exec (.nrzi f b) s = .next { s with
      pol := { s.pol with nrzi := q }
      out := ⟨true, 0b001#3, false, levelCode (levelOf q), 0b00#2, false, 0b00#2⟩ } := by
  subst h
  rw [exec_carried (c := .nrzi) rfl, finishCarried_spec]
  cases b <;> rfl

theorem refGo_nrzi_cons (p : Pol) (b : Bit) (bs : List Bit) :
    refGo .nrzi p (b :: bs) = levelOf (ruleNrzi p b).1 :: refGo .nrzi (ruleNrzi p b).1 bs := by
  simp only [refGo, schemeRule, ruleNrzi_emission, emissionLevels, List.singleton_append]

/-- Each level is the polarity after its bit, by induction on the bits. -/
theorem refGo_nrzi_getElem? (p : Pol) {bs : List Bit} {i : Nat} (h : i < bs.length) :
    (refGo .nrzi p bs)[i]? = some (levelOf (refFinal .nrzi p (bs.take (i + 1)))) := by
  induction bs generalizing p i with
  | nil => cases h
  | cons b bs ih =>
    rw [refGo_nrzi_cons]
    cases i with
    | zero => rfl
    | succ i => exact ih (ruleNrzi p b).1 (Nat.lt_of_succ_lt_succ h)

/-- Each 1-bit changes the sign once. -/
theorem refFinal_nrzi_signPol (n : Nat) (bs : List Bit) :
    refFinal .nrzi (signPol n) bs = signPol (n + bs.count .one) := by
  induction bs generalizing n with
  | nil => rfl
  | cons b bs ih =>
    cases b with
    | zero => rw [List.count_cons_of_ne (by decide)]; exact ih n
    | one =>
      rw [List.count_cons_self, ← Nat.add_assoc, Nat.add_right_comm, ← ih (n + 1), signPol_succ]
      rfl

theorem refFinal_nrzi_plus (bs : List Bit) : refFinal .nrzi .plus bs = signPol (bs.count .one) := by
  have h := refFinal_nrzi_signPol 0 bs
  rwa [Nat.zero_add] at h

end Machine
end Sys2Proof

open Sys2Proof.Machine

/-- Settles O42: two successive levels are the polarities before and after a bit, which differ exactly when it
toggles. -/
theorem nrziRunHoldsExactlyOnZeros : Obligations.NrziRunHoldsExactlyOnZeros := by
  refine ⟨fun bs i hi => ?_, fun bs => ⟨rfl, rfl⟩⟩
  rw [refEncode, refGo_nrzi_getElem? .plus hi, refGo_nrzi_getElem? .plus (Nat.lt_of_succ_lt hi),
    refFinal_take_succ .nrzi .plus hi, List.getElem?_eq_getElem hi, Option.some_inj, Option.some_inj,
    levelOf_injective.eq_iff]
  exact ruleNrzi_holds_iff _ _

/-- Settles O43: each level is the polarity after its bit, and that polarity counts the 1-bits. -/
theorem nrziClosedForm : Obligations.NrziClosedForm := by
  refine ⟨fun bs i hi => ⟨?_, refGo_nrzi_getElem? .plus hi⟩, fun bs s n hw => ?_⟩
  · rw [refEncode, refGo_nrzi_getElem? .plus hi, refFinal_nrzi_plus, signLevel]
  · have hheld : HoldsPol .nrzi s.pol.nrzi s := fun c hc => by cases hc; rfl
    obtain ⟨t, hruns, -, -, ht⟩ := run_runWindow hw hheld
    rw [refFinal_nrzi_plus] at ht
    exact ⟨t, hruns, ht .nrzi rfl⟩

/-- Settles O8: each beat leaves the polarity its rule gives, and two toggles give the first one back. -/
theorem nrziTogglesOnOneAndEmits : Obligations.NrziTogglesOnOneAndEmits := by
  refine ⟨fun f s h => ?_, fun s h => ?_, fun s => ?_, fun _ hw => decode_of_masked .nrzi hw,
    decode_encode (.nrzi false .one)⟩
  · have hp := incoming_of_first_or_plus h
    exact ⟨exec_nrzi (by rw [hp]; rfl), exec_nrzi (by rw [hp]; rfl)⟩
  · exact ⟨exec_nrzi (by rw [incoming_false, h]; rfl), exec_nrzi (by rw [incoming_false, h]; rfl)⟩
  · exact ⟨_, _, exec_nrzi rfl, exec_nrzi (negPol_negPol s.pol.nrzi), rfl⟩

end

section
/-! The bipolar codes: both are one rule, which emits the polarity and toggles it on the mark bit and emits 0 on the
other; the mark bit is 1 for AMI and 0 for Pseudoternary (42_bipolar.md R110, R112, R115). -/

namespace Sys2Proof
namespace Machine

/-- The scheme emits the polarity and toggles it on the bit `m`, and emits 0 and keeps it on the other
(42_bipolar.md R110, R112). -/
def MarksOn (sc : Scheme) (m : Bit) : Prop :=
  ∀ p b, schemeRule sc p b = if b = m then (negPol p, .single (levelOf p)) else (p, .single .zero)

theorem marksOn_ami : MarksOn .ami .one := fun _ b => by cases b <;> rfl

theorem marksOn_pt : MarksOn .pt .zero := fun _ b => by cases b <;> rfl

section
variable {sc : Scheme} {c : Carrier} {m b : Bit}

theorem schemeRule_mark (h : MarksOn sc m) (p : Pol) : schemeRule sc p m = (negPol p, .single (levelOf p)) := by
  rw [h, if_pos rfl]

theorem schemeRule_notMark (h : MarksOn sc m) (hb : b ≠ m) (p : Pol) : schemeRule sc p b = (p, .single .zero) := by
  rw [h, if_neg hb]

/-- A beat on the mark bit emits the incoming polarity and leaves the other one; a beat on the other bit emits 0 and
leaves the incoming polarity. -/
theorem exec_mark_and_notMark (h : MarksOn sc m) (hb : b ≠ m) (hc : carrierOf sc = some c) {f : Bool} {s : State}
    {p : Pol} (hp : incoming f (readPol c s) = p) :
    exec (beatOf sc f m) s =
        .next { s with pol := s.pol.set c (negPol p), out := stageEmitted sc (.single (levelOf p)) } ∧
      exec (beatOf sc f b) s = .next { s with pol := s.pol.set c p, out := stageEmitted sc (.single .zero) } := by
  simp only [exec_beatOf_carried hc, hp, schemeRule_mark h, schemeRule_notMark h hb, finishCarried_spec,
    carrierScheme_of_carrierOf hc, and_self]

theorem refGo_cons_mark (h : MarksOn sc m) (p : Pol) (bs : List Bit) :
    refGo sc p (m :: bs) = levelOf p :: refGo sc (negPol p) bs := by
  rw [refGo, schemeRule_mark h]
  rfl

theorem refGo_cons_notMark (h : MarksOn sc m) (hb : b ≠ m) (p : Pol) (bs : List Bit) :
    refGo sc p (b :: bs) = .zero :: refGo sc p bs := by
  rw [refGo, schemeRule_notMark h hb]
  rfl

theorem refFinal_cons_mark (h : MarksOn sc m) (p : Pol) (bs : List Bit) :
    refFinal sc p (m :: bs) = refFinal sc (negPol p) bs := by
  rw [refFinal, schemeRule_mark h]

theorem refFinal_cons_notMark (h : MarksOn sc m) (hb : b ≠ m) (p : Pol) (bs : List Bit) :
    refFinal sc p (b :: bs) = refFinal sc p bs := by
  rw [refFinal, schemeRule_notMark h hb]

/-- A run without a mark emits only 0 and keeps the polarity. -/
theorem refGo_refFinal_replicate_notMark (h : MarksOn sc m) (hb : b ≠ m) (p : Pol) (n : Nat) :
    refGo sc p (List.replicate n b) = List.replicate n .zero ∧ refFinal sc p (List.replicate n b) = p := by
  induction n with
  | zero => exact ⟨rfl, rfl⟩
  | succ n ih =>
    obtain ⟨hlevels, hpol⟩ := ih
    simp only [List.replicate_succ, refGo_cons_notMark h hb, refFinal_cons_notMark h hb, hlevels, hpol, and_self]

/-- Each mark changes the sign once. -/
theorem refFinal_marks (h : MarksOn sc m) (n : Nat) (bs : List Bit) :
    refFinal sc (signPol n) bs = signPol (n + bs.count m) := by
  induction bs generalizing n with
  | nil => rfl
  | cons b bs ih =>
    by_cases hb : b = m
    · subst hb
      rw [refFinal_cons_mark h, ← signPol_succ, ih, List.count_cons_self, Nat.add_right_comm, Nat.add_assoc]
    · rw [refFinal_cons_notMark h hb, ih, List.count_cons_of_ne hb]

theorem refFinal_plus_marks (h : MarksOn sc m) (bs : List Bit) : refFinal sc .plus bs = signPol (bs.count m) :=
  (refFinal_marks h 0 bs).trans (by rw [Nat.zero_add])

/-- Each bit's level: the polarity after the bits before it for a mark, and 0 for another bit. -/
theorem refGo_marks_getElem? (h : MarksOn sc m) (p : Pol) (bs : List Bit) (i : Nat) :
    (refGo sc p bs)[i]? = bs[i]?.map fun b => if b = m then levelOf (refFinal sc p (bs.take i)) else .zero := by
  induction bs generalizing p i with
  | nil => rfl
  | cons b bs ih =>
    by_cases hb : b = m
    · subst hb
      cases i with
      | zero => simp [refGo_cons_mark h, refFinal]
      | succ i => simp [refGo_cons_mark h, refFinal_cons_mark h, ih]
    · cases i with
      | zero => simp [refGo_cons_notMark h hb, hb]
      | succ i => simp [refGo_cons_notMark h hb, refFinal_cons_notMark h hb, ih]

/-- A run is 0 exactly at the bits that are no marks. -/
theorem refEncode_eq_zero_iff (h : MarksOn sc m) (hb : ∀ x, x ≠ m ↔ x = b) (bs : List Bit) (i : Nat) :
    (refEncode sc bs)[i]? = some .zero ↔ bs[i]? = some b := by
  have hzero (x : Bit) (p : Pol) : (if x = m then levelOf p else .zero) = .zero ↔ x = b := by
    rw [← hb x]
    simp [levelOf_ne_zero]
  simp only [refEncode, refGo_marks_getElem? h, Option.map_eq_some_iff, hzero, exists_eq_right]

/-- A mark's level is (-1) to the number of marks before it. -/
theorem refEncode_mark_getElem? (h : MarksOn sc m) {bs : List Bit} {i : Nat} (hi : bs[i]? = some m) :
    (refEncode sc bs)[i]? = some (signLevel ((bs.take i).count m)) := by
  rw [refEncode, refGo_marks_getElem? h, hi, refFinal_plus_marks h, Option.map_some, if_pos rfl, signLevel]

theorem nonzeroLevels_cons_levelOf (p : Pol) (xs : List Level) :
    nonzeroLevels (levelOf p :: xs) = levelOf p :: nonzeroLevels xs := by
  cases p <;> rfl

theorem nonzeroLevels_cons_zero (xs : List Level) : nonzeroLevels (.zero :: xs) = nonzeroLevels xs := rfl

/-- The nonzero levels are the signs in order, one per mark. -/
theorem nonzeroLevels_refGo (h : MarksOn sc m) (n : Nat) (bs : List Bit) :
    nonzeroLevels (refGo sc (signPol n) bs) = (List.range' n (bs.count m)).map signLevel := by
  induction bs generalizing n with
  | nil => rfl
  | cons b bs ih =>
    by_cases hb : b = m
    · subst hb
      rw [refGo_cons_mark h, nonzeroLevels_cons_levelOf, ← signPol_succ, ih, List.count_cons_self, List.range'_succ,
        List.map_cons, signLevel]
    · rw [refGo_cons_notMark h hb, nonzeroLevels_cons_zero, ih, List.count_cons_of_ne hb]

theorem nonzeroLevels_refEncode (h : MarksOn sc m) (bs : List Bit) :
    nonzeroLevels (refEncode sc bs) = (List.range (bs.count m)).map signLevel := by
  rw [List.range_eq_range']
  exact nonzeroLevels_refGo h 0 bs

/-- A run of the machine leaves (-1) to the number of marks. -/
theorem runWindow_leaves_signPol (h : MarksOn sc m) (hc : carrierOf sc = some c) {bs : List Bit} {s : State} {n : Nat}
    (hw : RunWindow sc bs s n) :
    ∃ t, runSteps n s = .next t ∧ readPol c t = if bs = [] then readPol c s else signPol (bs.count m) := by
  obtain ⟨t, hruns, -, ht⟩ := runLeavesReferencePolarity sc c bs s n hc hw
  rw [refFinal_plus_marks h] at ht
  exact ⟨t, hruns, ht⟩

/-- Successive nonzero levels of a run are successive signs. -/
theorem nonzeroLevels_ne_succ (h : MarksOn sc m) {bs : List Bit} {i : Nat}
    (hi : i + 1 < (nonzeroLevels (refEncode sc bs)).length) :
    (nonzeroLevels (refEncode sc bs))[i]? ≠ (nonzeroLevels (refEncode sc bs))[i + 1]? := by
  rw [nonzeroLevels_refEncode h, List.length_map, List.length_range] at hi
  rw [nonzeroLevels_refEncode h, List.getElem?_map, List.getElem?_map, List.getElem?_range hi,
    List.getElem?_range (Nat.lt_of_succ_lt hi)]
  exact fun heq => signLevel_ne_succ i (Option.some.inj heq)

end

end Machine
end Sys2Proof

open Sys2Proof.Machine

/-- Settles O44: AMI marks the 1-bits. -/
theorem amiRunAlternatesOnOnes : Obligations.AmiRunAlternatesOnOnes :=
  ⟨refEncode_eq_zero_iff marksOn_ami fun x => by cases x <;> decide, nonzeroLevels_refEncode marksOn_ami,
    fun _ _ => refEncode_mark_getElem? marksOn_ami, fun _ _ _ => runWindow_leaves_signPol marksOn_ami rfl, rfl, rfl⟩

/-- Settles O45: Pseudoternary marks the 0-bits. -/
theorem pseudoternaryRunAlternatesOnZeros : Obligations.PseudoternaryRunAlternatesOnZeros :=
  ⟨refEncode_eq_zero_iff marksOn_pt fun x => by cases x <;> decide, nonzeroLevels_refEncode marksOn_pt,
    fun _ _ => refEncode_mark_getElem? marksOn_pt, fun _ _ _ => runWindow_leaves_signPol marksOn_pt rfl⟩

/-- Settles O47: after k marks the register is (-1) to the k, and the last of them was (-1) to the k - 1. -/
theorem bipolarMarksAlternate : Obligations.BipolarMarksAlternate := by
  intro sc c hsc bs
  obtain ⟨m, hm, hc⟩ : ∃ m, MarksOn sc m ∧ carrierOf sc = some c := by
    rcases hsc with ⟨rfl, rfl⟩ | ⟨rfl, rfl⟩
    · exact ⟨.one, marksOn_ami, rfl⟩
    · exact ⟨.zero, marksOn_pt, rfl⟩
  refine ⟨fun s n hne hw => ?_, fun i => nonzeroLevels_ne_succ hm⟩
  obtain ⟨t, hruns, ht⟩ := runWindow_leaves_signPol hm hc hw
  rw [if_neg hne] at ht
  refine ⟨t, hruns, ?_⟩
  rw [nonzeroLevels_refEncode hm, ht]
  cases bs.count m with
  | zero => rfl
  | succ k =>
    rw [List.range_succ, List.map_append, List.map_singleton, List.getLast?_concat, signPol_succ, negPol_negPol]
    rfl

/-- Settles O9. -/
theorem amiMarksOnOne : Obligations.AmiMarksOnOne :=
  ⟨fun _ _ h => exec_mark_and_notMark marksOn_ami (by decide) rfl (incoming_of_first_or_plus h),
    fun _ h => exec_mark_and_notMark marksOn_ami (by decide) rfl (f := false) h,
    refGo_refFinal_replicate_notMark marksOn_ami (by decide) .plus, fun _ hw => decode_of_masked .ami hw,
    decode_encode (.ami false .one)⟩

/-- Settles O10. -/
theorem pseudoternaryMarksOnZero : Obligations.PseudoternaryMarksOnZero :=
  ⟨fun _ _ h => exec_mark_and_notMark marksOn_pt (by decide) rfl (incoming_of_first_or_plus h),
    fun _ h => exec_mark_and_notMark marksOn_pt (by decide) rfl (f := false) h,
    refGo_refFinal_replicate_notMark marksOn_pt (by decide) .plus, fun _ hw => decode_of_masked .pt hw,
    decode_encode (.pt false .zero)⟩

end

section
/-! The mirror law of the bipolar codes (42_bipolar.md R114). -/

namespace Sys2Proof
namespace Machine

theorem rulePt_eq_ruleAmi_flipBit (p : Pol) (b : Bit) : rulePt p b = ruleAmi p (flipBit b) := by cases b <;> rfl

theorem refGo_pt_eq_ami (p : Pol) (bs : List Bit) : refGo .pt p bs = refGo .ami p (bs.map flipBit) := by
  induction bs generalizing p with
  | nil => rfl
  | cons b bs ih => simp only [List.map_cons, refGo, schemeRule, rulePt_eq_ruleAmi_flipBit, ih]

theorem refFinal_pt_eq_ami (p : Pol) (bs : List Bit) : refFinal .pt p bs = refFinal .ami p (bs.map flipBit) := by
  induction bs generalizing p with
  | nil => rfl
  | cons b bs ih => simp only [List.map_cons, refFinal, schemeRule, rulePt_eq_ruleAmi_flipBit, ih]

end Machine
end Sys2Proof

open Sys2Proof.Machine

/-- Settles O46: bit by bit the two rules agree, and each machine run leaves its reference's last polarity. -/
theorem pseudoternaryMirrorsAmi : Obligations.PseudoternaryMirrorsAmi := by
  refine ⟨refGo_pt_eq_ami .plus, fun bs s s' n n' hne hpt hami => ?_⟩
  have hne' : bs.map flipBit ≠ [] := fun h => hne (List.map_eq_nil_iff.mp h)
  obtain ⟨t, hruns, -, ht⟩ := runLeavesReferencePolarity .pt .pt bs s n rfl hpt
  obtain ⟨t', hruns', -, ht'⟩ := runLeavesReferencePolarity .ami .ami _ s' n' rfl hami
  rw [if_neg hne, refFinal_pt_eq_ami] at ht
  rw [if_neg hne'] at ht'
  exact ⟨t, t', hruns, hruns', ht.trans ht'.symm⟩

end

section
/-! The two halves of a bit in a run of the Manchester family: those its rule emits from the polarity after the bits
before it (43_manchester.md, head of the file). -/

namespace Sys2Proof
namespace Machine

theorem halvesOf_append_left {xs : List Level} {i : Nat} (h : 2 * i + 1 < xs.length) (ys : List Level) :
    halvesOf (xs ++ ys) i = halvesOf xs i := by
  rw [halvesOf, List.getElem?_append_left h, List.getElem?_append_left (Nat.lt_of_succ_lt h), halvesOf]

/-- The levels of `i` bits stand before the halves of bit `i`. -/
theorem halvesOf_append_right {xs : List Level} {i : Nat} (h : xs.length = 2 * i) (ys : List Level) :
    halvesOf (xs ++ ys) i = halvesOf ys 0 := by
  rw [halvesOf, ← h, List.getElem?_append_right (Nat.le_refl _), List.getElem?_append_right (Nat.le_add_right _ 1),
    Nat.sub_self, Nat.add_sub_cancel_left, halvesOf]

/-- The run splits at bit `i` into the levels of the bits before it, its own pair, and the levels of the bits after. -/
theorem halvesOf_refGo {sc : Scheme} (hpair : levelsPerBit sc = 2) (p : Pol) {bs : List Bit} {i : Nat} {b : Bit}
    (hi : bs[i]? = some b) :
    halvesOf (refGo sc p bs) i = halvesOf (emissionLevels (schemeRule sc (refFinal sc p (bs.take i)) b).2) 0 := by
  obtain ⟨hlt, rfl⟩ := List.getElem?_eq_some_iff.mp hi
  have hsplit : bs.take i ++ bs[i] :: bs.drop (i + 1) = bs := by
    rw [← List.drop_eq_getElem_cons hlt, List.take_append_drop]
  have hbefore : (refGo sc p (bs.take i)).length = 2 * i := by
    rw [refGo_length, hpair, List.length_take_of_le (Nat.le_of_lt hlt)]
  have hown : 2 * 0 + 1 < (emissionLevels (schemeRule sc (refFinal sc p (bs.take i)) bs[i]).2).length := by
    rw [emissionLevels_schemeRule_length, hpair]
    decide
  calc halvesOf (refGo sc p bs) i
      = halvesOf (refGo sc p (bs.take i ++ bs[i] :: bs.drop (i + 1))) i := by rw [hsplit]
    _ = halvesOf (refGo sc (refFinal sc p (bs.take i)) (bs[i] :: bs.drop (i + 1))) 0 := by
      rw [refGo_append, halvesOf_append_right hbefore]
    _ = _ := halvesOf_append_left hown _

end Machine
end Sys2Proof

end

section
/-! Manchester: each bit is a pair of its own, whatever came before (43_manchester.md R120, R121). -/

namespace Sys2Proof
namespace Machine

theorem emissionLevels_ruleMan (b : Bit) :
    emissionLevels (ruleMan b) = if b = .one then [.high, .low] else [.low, .high] := by
  cases b <;> rfl

theorem refGo_man (p : Pol) (bs : List Bit) :
    refGo .man p bs = bs.flatMap fun b => if b = .one then [.high, .low] else [.low, .high] := by
  induction bs with
  | nil => rfl
  | cons b bs ih => simp only [refGo, schemeRule, emissionLevels_ruleMan, ih, List.flatMap_cons]

theorem exec_man (f : Bool) (b : Bit) (s : State) :
    exec (.man f b) s = .next { s with out := stageEmitted .man (ruleMan b) } :=
  exec_stateless rfl s

end Machine
end Sys2Proof

open Sys2Proof.Machine

/-- Settles O48: the halves of a bit are its own pair, which is high-low or low-high. -/
theorem manchesterRunIsBitByBit : Obligations.ManchesterRunIsBitByBit := by
  refine ⟨refGo_man .plus, refGo_length .man .plus, fun bs i hi => ?_, rfl, rfl⟩
  obtain ⟨hfirst, hsecond⟩ := Prod.mk.inj (halvesOf_refGo (sc := .man) rfl .plus (List.getElem?_eq_getElem hi))
  simp only [refEncode, hfirst, hsecond, schemeRule, emissionLevels_ruleMan]
  cases bs[i] with
  | zero => decide
  | one => decide

/-- Settles O11. -/
theorem manchesterEmitsOppositeHalves : Obligations.ManchesterEmitsOppositeHalves :=
  ⟨fun f s => ⟨exec_man f .one s, exec_man f .zero s⟩, fun _ hw => decode_of_masked .man hw,
    fun sc => by cases sc <;> decide, decode_encode (.man false .zero)⟩

end

section
/-! Differential Manchester: every bit toggles the polarity, so the one taken in by bit `i` of a run is (-1) to the `i`
(43_manchester.md R123, R124, R125). -/

namespace Sys2Proof
namespace Machine

/-- Either bit leaves the other polarity. -/
theorem ruleDman_toggles (p : Pol) (b : Bit) : (ruleDman p b).1 = negPol p := by cases b <;> rfl

/-- The second half is always at the new level; the first is at the old level for a 1 and the new one for a 0. -/
theorem ruleDman_emission (p : Pol) (b : Bit) :
    (ruleDman p b).2 = .pair (levelOf (if b = .one then p else negPol p)) (levelOf (negPol p)) := by
  cases b <;> rfl

/-- A Differential Manchester beat by the polarity it takes in. -/
theorem exec_dman {f : Bool} {s : State} {p : Pol} (h : incoming f s.pol.dman = p) (b : Bit) :
    exec (.dman f b) s = .next { s with
      pol := { s.pol with dman := negPol p }
      out := stageEmitted .dman (ruleDman p b).2 } := by
  subst h
  rw [exec_carried (c := .dman) rfl, finishCarried_spec, ← ruleDman_toggles _ b]
  rfl

/-- Every bit changes the sign. -/
theorem refFinal_dman_signPol (n : Nat) (bs : List Bit) :
    refFinal .dman (signPol n) bs = signPol (n + bs.length) := by
  induction bs generalizing n with
  | nil => rfl
  | cons b bs ih =>
    rw [refFinal, schemeRule, ruleDman_toggles, ← signPol_succ, ih, List.length_cons, Nat.add_right_comm,
      Nat.add_assoc]

theorem refFinal_dman_plus (bs : List Bit) : refFinal .dman .plus bs = signPol bs.length :=
  (refFinal_dman_signPol 0 bs).trans (by rw [Nat.zero_add])

theorem refFinal_dman_take {bs : List Bit} {i : Nat} (h : i ≤ bs.length) :
    refFinal .dman .plus (bs.take i) = signPol i := by
  rw [refFinal_dman_plus, List.length_take_of_le h]

/-- The halves of bit `i`: the second is (-1) to the `i + 1`, the first equals it for a 0 and is (-1) to the `i` for
a 1. -/
theorem halvesOf_refEncode_dman {bs : List Bit} {i : Nat} {b : Bit} (hi : bs[i]? = some b) :
    halvesOf (refEncode .dman bs) i =
      (some (if b = .one then signLevel i else signLevel (i + 1)), some (signLevel (i + 1))) := by
  obtain ⟨hlt, -⟩ := List.getElem?_eq_some_iff.mp hi
  rw [refEncode, halvesOf_refGo rfl .plus hi, refFinal_dman_take (Nat.le_of_lt hlt), schemeRule, ruleDman_emission,
    ← signPol_succ, apply_ite levelOf]
  rfl

/-- A bit's start is compared with (-1) to the `i`, the initial polarity for bit 0 included. -/
theorem levelBefore_refEncode_dman {bs : List Bit} {i : Nat} (h : i < bs.length) :
    levelBefore (refEncode .dman bs) i = some (signLevel i) := by
  cases i with
  | zero => rfl
  | succ i => rw [levelBefore, halvesOf_refEncode_dman (List.getElem?_eq_getElem (Nat.lt_of_succ_lt h))]

/-- Only a 0-bit starts at another level than the one before it: the two are successive signs. -/
theorem startTransition_refEncode_dman {bs : List Bit} {i : Nat} {b : Bit} (hi : bs[i]? = some b) :
    startTransition (refEncode .dman bs) i = (b == .zero) := by
  obtain ⟨hlt, -⟩ := List.getElem?_eq_some_iff.mp hi
  rw [startTransition, levelBefore_refEncode_dman hlt, halvesOf_refEncode_dman hi]
  cases b with
  | zero => simp [signLevel_ne_succ]
  | one => simp

/-- Only a 1-bit has different halves: they are successive signs. -/
theorem midTransition_refEncode_dman {bs : List Bit} {i : Nat} {b : Bit} (hi : bs[i]? = some b) :
    midTransition (refEncode .dman bs) i = (b == .one) := by
  rw [midTransition, halvesOf_refEncode_dman hi]
  cases b with
  | zero => simp
  | one => simp [signLevel_ne_succ]

end Machine
end Sys2Proof

open Sys2Proof.Machine

/-- Settles O49: the polarity alternates whatever the bits are, and the halves of a bit follow from the one it
takes in. -/
theorem differentialManchesterClosedForm : Obligations.DifferentialManchesterClosedForm := by
  refine ⟨fun bs i => refFinal_dman_take, fun bs i => halvesOf_refEncode_dman, fun bs i => halvesOf_refEncode_dman,
    fun bs i hi => ?_, fun bs s n hw => ?_⟩
  · rw [halvesOf_refEncode_dman (List.getElem?_eq_getElem hi), refFinal_dman_take hi]
    rfl
  · obtain ⟨t, hruns, -, ht⟩ := runLeavesReferencePolarity .dman .dman bs s n rfl hw
    rw [refFinal_dman_plus] at ht
    exact ⟨t, hruns, ht⟩

/-- Settles O50. -/
theorem differentialManchesterTransitions : Obligations.DifferentialManchesterTransitions :=
  ⟨fun _ _ h => ⟨startTransition_refEncode_dman h, midTransition_refEncode_dman h⟩,
    fun _ _ h => ⟨startTransition_refEncode_dman h, midTransition_refEncode_dman h⟩, rfl, rfl⟩

/-- Settles O12: a beat that takes in +1, by its first flag or its register, or one that takes in a held -1. -/
theorem differentialManchesterTogglesEveryBit : Obligations.DifferentialManchesterTogglesEveryBit := by
  refine ⟨fun f s h => ?_, fun s h => ?_, fun _ hw => decode_of_masked .dman hw, decode_encode (.dman false .one)⟩
  · have hp := incoming_of_first_or_plus h
    exact ⟨exec_dman hp .zero, exec_dman hp .one⟩
  · exact ⟨exec_dman (f := false) h .zero, exec_dman (f := false) h .one⟩

end

section
/-! A rejected word: the edge that accepts one loads the error ports and nothing else, and no other edge raises
`err_valid` (60_exceptions.md R131, R137; 40_beat.md R84). -/

namespace Sys2Proof
namespace Machine

/-- No beat reads the output stage. -/
theorem exec_loadStage (i : Instr) (o : OutStage) (s : State) : exec i (loadStage o s) = exec i s := by
  cases hc : carrierOf i.scheme with
  | none => rw [exec_stateless hc, exec_stateless hc]; rfl
  | some c => rw [exec_carried hc, exec_carried hc]; rfl

/-- A step on an edge whose word has a reserved code rejects the word. -/
theorem step_reserved {s : State} {p : Inputs} {rest : List HostEvent} (h : s.host = .edge p :: rest)
    (hr : p.rst = false) (hv : p.inValid = true)
    (hres : wordScheme p.inWord = 0b110#3 ∨ wordScheme p.inWord = 0b111#3) :
    step s = .next { s with out := stageRejected, host := rest } := by
  rw [step_edge h, clockEdge_accept hr hv, acceptWord_reject (decode_of_reserved hres), rejectBeat_spec]

/-- An outcome raises `err_valid` exactly if it is a rejection. -/
theorem outcomeStage_errValid_iff (o : BeatOutcome) :
    (outcomeStage o).errValid = true ↔ ∃ code, o = .rejected code := by
  cases o with
  | emitted sc xs => simp [outcomeStage, stageEmitted]
  | rejected code => simp [outcomeStage, stageRejected]

/-- The beat step rejects exactly the words with a reserved code. -/
theorem beatStep_rejects_iff (st : Polarities) (w : BeatWord) :
    (∃ code, (beatStep st w).2 = .rejected code) ↔ wordScheme w = 0b110#3 ∨ wordScheme w = 0b111#3 := by
  cases hd : decode w with
  | rejectUnknownScheme code =>
    rw [beatStep_reject hd]
    refine ⟨fun _ => ?_, fun _ => ⟨code, rfl⟩⟩
    refine (schemeCode_or_reserved (wordScheme w)).resolve_left fun ⟨sc, h⟩ => ?_
    cases (decode_of_scheme h).symm.trans hd
  | beat i =>
    have hnot : ¬(wordScheme w = 0b110#3 ∨ wordScheme w = 0b111#3) := fun h => by
      cases (decode_of_reserved h).symm.trans hd
    cases hc : carrierOf i.scheme with
    | none => simp [beatStep_stateless hd hc, hnot]
    | some c => simp [beatStep_carried hd hc, hnot]

/-- An edge raises `err_valid` exactly if it accepts a word with a reserved code. -/
theorem beatLevelEdge_errValid_iff (st : Polarities) (p : Inputs) :
    (beatLevelEdge st p).2.errValid = true ↔
      p.rst = false ∧ p.inValid = true ∧ (wordScheme p.inWord = 0b110#3 ∨ wordScheme p.inWord = 0b111#3) := by
  rw [← beatStep_rejects_iff st, ← outcomeStage_errValid_iff]
  cases hr : p.rst <;> cases hv : p.inValid <;> simp [beatLevelEdge, hr, hv, OutStage.zero]

end Machine
end Sys2Proof

open Sys2Proof.Machine

/-- Settles O27: the rejection loads the output stage alone, which no beat reads. -/
theorem rejectedWordChangesNoRegister : Obligations.RejectedWordChangesNoRegister := by
  intro s p rest h hr hv hres
  exact ⟨_, step_reserved h hr hv hres, rfl, fun i => exec_loadStage i stageRejected { s with host := rest }⟩

/-- Settles O28. -/
theorem errValidExactlyAfterARejectedWord : Obligations.ErrValidExactlyAfterARejectedWord :=
  fun s p _ h => ⟨_, step_edge_eq_afterEdge h, beatLevelEdge_errValid_iff s.pol p⟩

end

section
/-! A loss of power reads nothing of the hardware, and a reset edge overwrites whatever it left (60_exceptions.md R147;
70_reset_and_hazards.md R150, R151). -/

namespace Sys2Proof
namespace Machine

/-- What registers, ports and mark of reset held before a loss of power does not reach the state after it. -/
theorem powerCycle_retains_nothing (s : State) (ps : Polarities) (o : OutStage) (r : Bool) :
    powerCycle { s with pol := ps, out := o, wasReset := r } = powerCycle s := rfl

theorem step_reset {s : State} {p : Inputs} {rest : List HostEvent} (h : s.host = .edge p :: rest)
    (hr : p.rst = true) : step s = .next (resetEdge { s with host := rest }) := by
  rw [step_edge h, clockEdge_reset hr]

end Machine
end Sys2Proof

open Sys2Proof.Machine

/-- Settles O33: the step is `powerCycle`, and the reset edge after it writes every register and port. -/
theorem powerLossRetainsNothing : Obligations.PowerLossRetainsNothing := by
  refine ⟨fun s ps o r rest h => ?_, fun s p rest h hr => ?_⟩
  · rw [step_powerLoss h, step_powerLoss (s := { s with pol := ps, out := o, wasReset := r }) h]
    exact congrArg _ (powerCycle_retains_nothing { s with host := rest } ps o r)
  · have hhost : (powerCycle { s with host := .edge p :: rest }).host = .edge p :: rest := rfl
    exact ⟨_, _, step_powerLoss h, hhost, powerCycle_wasReset _, step_reset hhost hr, rfl, rfl, rfl, rfl⟩

end

section
/-! The host's two checks, each as the texts it accepts and the one error it reports otherwise (60_exceptions.md R132 to
R135). -/

namespace Sys2Proof
namespace Machine

theorem charOfBit_eq (b : Bit) : charOfBit b = if b = .one then '1' else '0' := by cases b <;> rfl

theorem bitOfChar_eq_some {c : Char} {b : Bit} (h : bitOfChar c = some b) : c = charOfBit b := by
  unfold bitOfChar at h
  split at h
  · next hc => rw [hc, ← Option.some.inj h]; rfl
  · split at h
    · next hc => rw [hc, ← Option.some.inj h]; rfl
    · cases h

/-- The parser accepts a text exactly if it is the text of bits, and gives those bits. -/
theorem parseBits_eq_ok_iff (cs : List Char) (bs : List Bit) : parseBits cs = .ok bs ↔ cs = bs.map charOfBit := by
  refine ⟨fun h => ?_, fun h => h ▸ parseBits_map_charOfBit bs⟩
  induction cs generalizing bs with
  | nil => rw [← Except.ok.inj h]; rfl
  | cons c cs ih =>
    unfold parseBits at h
    split at h
    · next b bs' hb hbs =>
      rw [← Except.ok.inj h, List.map_cons, ← bitOfChar_eq_some hb, ← ih bs' hbs]
    · cases h

theorem parseBits_cases (cs : List Char) : (∃ bs, parseBits cs = .ok bs) ∨ parseBits cs = .error .invalidSymbol := by
  cases cs with
  | nil => exact .inl ⟨[], rfl⟩
  | cons c cs =>
    unfold parseBits
    split
    · exact .inl ⟨_, rfl⟩
    · exact .inr rfl

/-- One character that is no bit fails the parse, since a text that parses is made of the characters of bits. -/
theorem parseBits_invalidSymbol {cs : List Char} (h : ∃ c ∈ cs, c ≠ '0' ∧ c ≠ '1') :
    parseBits cs = .error .invalidSymbol := by
  obtain ⟨c, hmem, hzero, hone⟩ := h
  refine (parseBits_cases cs).resolve_left fun ⟨bs, hbs⟩ => ?_
  rw [(parseBits_eq_ok_iff cs bs).mp hbs] at hmem
  obtain ⟨b, -, rfl⟩ := List.mem_map.mp hmem
  cases b with
  | zero => exact hzero rfl
  | one => exact hone rfl

theorem selectScheme_cases (name : List Char) :
    (∃ sc, selectScheme name = .ok sc) ∨ selectScheme name = .error .unknownScheme := by
  unfold selectScheme
  split
  · exact .inl ⟨_, rfl⟩
  · exact .inr rfl

theorem selectScheme_identifierOf (sc : Scheme) : selectScheme (identifierOf sc) = .ok sc := by cases sc <;> rfl

/-- A name that is no identifier selects no scheme. -/
theorem selectScheme_unknownScheme {name : List Char} (h : name ∉ allSchemes.map identifierOf) :
    selectScheme name = .error .unknownScheme := by
  have hnone : allSchemes.find? (fun sc => identifierOf sc == name) = none :=
    List.find?_eq_none.mpr fun sc hsc heq => h (List.mem_map.mpr ⟨sc, hsc, eq_of_beq heq⟩)
  simp only [selectScheme, hnone]

end Machine
end Sys2Proof

end

section
/-! What the host does with a request that fails a check: it reports an error and presents nothing, and the order of the
checks shows in the report alone (60_exceptions.md R132, R134, R138). -/

namespace Sys2Proof
namespace Machine

theorem hostRequest_unknownScheme {q : HostRequest} {bs : List Bit}
    (hsel : selectScheme q.identifier = .error .unknownScheme) (hbits : parseBits q.text = .ok bs)
    (order : HostErrorOrder) : hostRequest order q = .error .unknownScheme := by
  simp only [hostRequest, hsel, hbits]

theorem hostRequest_invalidSymbol {q : HostRequest} {sc : Scheme} (hsel : selectScheme q.identifier = .ok sc)
    (hbits : parseBits q.text = .error .invalidSymbol) (order : HostErrorOrder) :
    hostRequest order q = .error .invalidSymbol := by
  simp only [hostRequest, hsel, hbits]

theorem hostRequest_bothErrors {q : HostRequest} (hsel : selectScheme q.identifier = .error .unknownScheme)
    (hbits : parseBits q.text = .error .invalidSymbol) :
    hostRequest .unknownSchemeFirst q = .error .unknownScheme ∧
      hostRequest .invalidSymbolFirst q = .error .invalidSymbol := by
  simp only [hostRequest, hsel, hbits, and_self]

/-- A request that fails either check is answered with an error and leaves the state as it is. -/
theorem request_rejected {q : HostRequest}
    (h : selectScheme q.identifier = .error .unknownScheme ∨ parseBits q.text = .error .invalidSymbol)
    (order : HostErrorOrder) (s : State) :
    (∃ e, hostRequest order q = .error e) ∧ serveRequest order q s = s := by
  have herr : ∃ e, hostRequest order q = .error e := by
    rcases selectScheme_cases q.identifier with ⟨sc, hsel⟩ | hsel
    · exact ⟨_, hostRequest_invalidSymbol hsel (h.resolve_left (by simp [hsel])) order⟩
    · rcases parseBits_cases q.text with ⟨bs, hbits⟩ | hbits
      · exact ⟨_, hostRequest_unknownScheme hsel hbits order⟩
      · cases order with
        | unknownSchemeFirst => exact ⟨_, (hostRequest_bothErrors hsel hbits).1⟩
        | invalidSymbolFirst => exact ⟨_, (hostRequest_bothErrors hsel hbits).2⟩
  refine ⟨herr, ?_⟩
  obtain ⟨e, he⟩ := herr
  simp only [serveRequest, he]

/-- Serving a request does the same to the state in either order of the checks. -/
theorem serveRequest_order (order order' : HostErrorOrder) (q : HostRequest) (s : State) :
    serveRequest order q s = serveRequest order' q s := by
  by_cases h : selectScheme q.identifier = .error .unknownScheme ∨ parseBits q.text = .error .invalidSymbol
  · rw [(request_rejected h order s).2, (request_rejected h order' s).2]
  · rw [not_or] at h
    obtain ⟨sc, hsel⟩ := (selectScheme_cases q.identifier).resolve_right h.1
    obtain ⟨bs, hbits⟩ := (parseBits_cases q.text).resolve_right h.2
    rw [serveRequest_valid hsel hbits, serveRequest_valid hsel hbits]

end Machine
end Sys2Proof

open Sys2Proof.Machine

/-- Settles O51: the texts that parse are the texts of bits, and a failed parse is a rejected request. -/
theorem parserIsStrictAndAtomic : Obligations.ParserIsStrictAndAtomic := by
  refine ⟨fun cs bs => ?_, fun _ h => parseBits_invalidSymbol h, fun order q s h => ?_, rfl, fun _ => rfl⟩
  · simp only [parseBits_eq_ok_iff, ← charOfBit_eq]
  · exact request_rejected (.inr (parseBits_invalidSymbol h)) order s

/-- Settles O52: an identifier selects its scheme, and any other name is a rejected request. -/
theorem selectionMatchesExactly : Obligations.SelectionMatchesExactly := by
  refine ⟨selectScheme_identifierOf .nrzl, selectScheme_identifierOf .nrzi, selectScheme_identifierOf .ami,
    selectScheme_identifierOf .pt, selectScheme_identifierOf .man, selectScheme_identifierOf .dman,
    rfl, rfl, rfl, rfl, rfl, rfl, fun name h => ?_⟩
  have hsel : selectScheme name = .error .unknownScheme := selectScheme_unknownScheme h
  exact ⟨hsel, fun order text s => request_rejected (q := ⟨name, text⟩) (.inl hsel) order s⟩

/-- Settles O53. -/
theorem hostErrorOrderOnlyChoosesTheReport : Obligations.HostErrorOrderOnlyChoosesTheReport :=
  ⟨fun _ => hostRequest_bothErrors, fun order _ _ hsel hbits => hostRequest_invalidSymbol hsel hbits order,
    fun order _ _ hsel hbits => hostRequest_unknownScheme hsel hbits order, serveRequest_order⟩

end

section
/-! What the edge function of the beat-level model gives for each of its inputs (70_reset_and_hazards.md R155), and what a
reset edge hides of the state before it (70_reset_and_hazards.md R150, R151, R154). -/

namespace Sys2Proof
namespace Machine

theorem beatLevelEdge_reset {p : Inputs} (hr : p.rst = true) (st : Polarities) :
    beatLevelEdge st p = (.allPlus, .zero) := if_pos hr

theorem beatLevelEdge_idle {p : Inputs} (hr : p.rst = false) (hv : p.inValid = false) (st : Polarities) :
    beatLevelEdge st p = (st, .zero) := by
  simp only [beatLevelEdge, hr, hv, Bool.false_eq_true, if_false]

theorem beatLevelEdge_accept {p : Inputs} (hr : p.rst = false) (hv : p.inValid = true) (st : Polarities) :
    beatLevelEdge st p = ((beatStep st p.inWord).1, outcomeStage (beatStep st p.inWord).2) := by
  simp only [beatLevelEdge, hr, hv, Bool.false_eq_true, if_false, if_true]

/-- A rejected word writes no register (40_beat.md R84). -/
theorem beatStep_rejected_keeps {st : Polarities} {w : BeatWord} {c : SchemeCode}
    (h : (beatStep st w).2 = .rejected c) : (beatStep st w).1 = st := by
  have hres : wordScheme w = 0b110#3 ∨ wordScheme w = 0b111#3 := (beatStep_rejects_iff st w).mp ⟨c, h⟩
  rw [beatStep_reject (decode_of_reserved hres)]

theorem launchedWithReset_iff (s : State) :
    LaunchedWithReset s ↔ ∃ p rest, s.host = .edge p :: rest ∧ p.rst = true := by
  unfold LaunchedWithReset
  match s.host with
  | [] => simp
  | .powerLoss :: _ => simp [isResetEdge]
  | .edge p :: rest => simp [isResetEdge]

/-- What registers, ports and mark of reset held before a reset edge does not reach the state after it. -/
theorem resetEdge_retains_nothing (s : State) (ps : Polarities) (o : OutStage) (r : Bool) :
    resetEdge { s with pol := ps, out := o, wasReset := r } = resetEdge s := rfl

/-- The cycles to come depend on a state only through its next step. -/
theorem runCycles_eq_of_step_eq {s s' : State} (h : step s = step s') (n : Nat) : runCycles n s = runCycles n s' := by
  cases n with
  | zero => rfl
  | succ n => simp only [runCycles, h]

/-- An edge takes no free value. -/
theorem afterEdge_takes_no_draw (p : Inputs) (s : State) :
    (afterEdge p s).source = s.source ∧ (afterEdge p s).draws = s.draws := ⟨rfl, rfl⟩

end Machine
end Sys2Proof

open Sys2Proof.Machine

/-- Settles O23: the step is `afterEdge`, and the edge function is read off input by input. -/
theorem stepAgreesWithEdgeFunction : Obligations.StepAgreesWithEdgeFunction := by
  refine ⟨fun _ _ _ => step_edge_eq_afterEdge, fun st _ hr => beatLevelEdge_reset hr st,
    fun st _ hr hv => beatLevelEdge_idle hr hv st, fun st p sc xs hr hv h => ?_, fun st p c hr hv h => ?_⟩
  · rw [beatLevelEdge_accept hr hv, h]; rfl
  · rw [beatLevelEdge_accept hr hv, beatStep_rejected_keeps h, h]; rfl

/-- Settles O24. -/
theorem resetEdgeReinitialisesEverything : Obligations.ResetEdgeReinitialisesEverything :=
  fun _ _ _ => step_reset

/-- Settles O39: after the reset edge every scheme holds +1, from which unmarked beats emit the reference's levels. -/
theorem resetAbandonsTheRun : Obligations.ResetAbandonsTheRun :=
  fun _ _ _ h hr => ⟨_, step_reset h hr, rfl, rfl, rfl, fun sc _ _ hw =>
    collectLevels_unmarkedWindow hw (holdsPol_plus_of_allPlus sc rfl)⟩

/-- Settles O56: the first step is a reset edge, which overwrites everything the two states differ in. -/
theorem launchResetHidesPowerUpValues : Obligations.LaunchResetHidesPowerUpValues := by
  intro s ps o r n h
  obtain ⟨p, rest, hhost, hr⟩ := (launchedWithReset_iff s).mp h
  refine runCycles_eq_of_step_eq ?_ n
  rw [step_reset hhost hr, step_reset (s := { s with pol := ps, out := o, wasReset := r }) hhost hr]
  exact congrArg _ (resetEdge_retains_nothing { s with host := rest } ps o r)

/-- Settles O58: a step is an edge, which draws nothing, or a power cycle, which draws for each of the eleven elements. -/
theorem powerLossDrawsFreshValues : Obligations.PowerLossDrawsFreshValues := by
  intro s
  obtain ⟨t, ht⟩ := step_completes s
  refine ⟨t, ht, ?_⟩
  obtain ⟨p, hhead, rfl⟩ | ⟨rest, hhost, rfl⟩ := step_cases ht
  · have hno : s.host.head? ≠ some .powerLoss := fun hloss => by simp [List.headD_eq_head?_getD, hloss] at hhead
    obtain ⟨hsource, hdraws⟩ := afterEdge_takes_no_draw p { s with host := s.host.tail }
    exact ⟨hsource, by rw [if_neg hno, hdraws], fun hloss => absurd hloss hno⟩
  · have hloss : s.host.head? = some .powerLoss := by rw [hhost]; rfl
    obtain ⟨-, hsource, hdraws, -, -⟩ := powerCycle_spec { s with host := rest }
    exact ⟨hsource, by rw [if_pos hloss, hdraws], fun _ => ⟨powerCycle_pol _, powerCycle_out _⟩⟩

end
